-- ==== Sys2Proof/Word.lean ====
section
/-! DEFINITION. The word types of the block's ports and registers (spec/00_scope.md R6, R7) and nothing else. -/

namespace Sys2Proof

/-- A scalar operand (`NW` = `LENW` = 32) or a weight register (`WW` = 32), R6. -/
abbrev Word := BitVec 32

/-- A pixel (`PIXW` = 8), an input code point (`CPW_IN` = 8) or one beat of the operand stream, R5, R6. -/
abbrev Byte := BitVec 8

/-- An output code point (`CPW_OUT` = 9), R6. -/
abbrev CodePoint := BitVec 9

/-- A grid dimension (`DIMW` = 16), R6. -/
abbrev Dim := BitVec 16

/-- The scalar result port (`VALW` = 64), R6. -/
abbrev Val := BitVec 64

/-- A bit sequence: the digit 0 is `false`, the digit 1 is `true`, index 0 first (R8). -/
abbrev Bits := List Bool

end Sys2Proof
end

