-- ==== Sys2Proof/Config.lean ====
section
/-! DEFINITION. The constants the spec fixes (spec/00_scope.md R5, R6) and the free values it leaves open. -/

namespace Sys2Proof.Config

/-- `LMAX`, the number of weight registers (R6). -/
abbrev weightRegisters : Nat := 36

/-- `TEXT_THRESHOLD`, the threshold of the text codec's table (R5). -/
abbrev textThreshold : Nat := 255

/-- `SLOTW`, digits per character slot (R5). -/
abbrev slotWidth : Nat := 9

/-- `HDRW`, digits of the frame's length header (R5). -/
abbrev headerWidth : Nat := 32

/-- `LSB_CLEAR_MASK` (R5). -/
abbrev lsbClearMask : Byte := 0xFE#8

/-- FREE VALUE (log entry 6): what the TRIBGEN numbered by the first argument leaves in the weight register of the
second argument, an index at or above the new `WLEN` (R61: "become unspecified"). -/
opaque freeWeight : Nat → Nat → Word

/-- FREE VALUE (log entry 8): `val` for a result, the argument, that does not fit the 64-bit port (R41, R141). -/
opaque wideVal : Nat → Val

/-- FREE VALUE (log entry 9): a 32-bit field of `val` for a number, the argument, that does not fit it (R151). -/
opaque wideField : Nat → Word

end Sys2Proof.Config
end

