-- ==== Sys2Proof/Syntax.lean ====
section
/-! DEFINITION. Commands as the host presents them (spec/30_encoding.md R40) and the sixteen instructions of the
operation map (R43), each with the operands it uses (R44, R45) and no others. -/

namespace Sys2Proof

/-- A command as the host presents it (R40): the command word, two scalar operands, and the stream operand as the
finite sequence of its 8-bit beats (log entry 10). This is the record with `s` a list that R56 asks of a model. -/
structure Command where
  word : BitVec 8
  a : Word
  b : Word
  s : List Byte
  deriving DecidableEq, Repr

/-- One constructor per row of spec/opcode_table.json. -/
inductive Instr where
  /-- TRIBGEN, R61. -/
  | tribgen (threshold : Word)
  /-- GZRENC, R71. -/
  | gzrenc (n : Word)
  /-- GZRDEC, R74. -/
  | gzrdec (digits : Bits)
  /-- TXT2BITS, R87. -/
  | txt2bits (text : List Byte)
  /-- BITS2TXT, R88. -/
  | bits2txt (bits : Bits)
  /-- FRAME, R101. -/
  | frame (payload : Bits)
  /-- UNFRAMEH, R103. -/
  | unframeh (framed : Bits)
  /-- UNFRAMEP, R105. -/
  | unframep (payloadBitLength : Word) (framed : Bits)
  /-- LSBEMB, R119. -/
  | lsbemb (framed : Bits)
  /-- LSBEXT, R121. -/
  | lsbext (start : Word) (length : Word)
  /-- CAPQ, R116. -/
  | capq
  /-- CAPCHK, R117. -/
  | capchk (payloadBitLen : Word)
  /-- GRIDLD, R135: the whole operands `a` and `b`, their upper halves included. -/
  | gridld (a : Word) (b : Word) (pixels : List Byte)
  /-- GRIDRD, R136. -/
  | gridrd
  /-- STEGENC, R137. -/
  | stegenc (text : List Byte)
  /-- STEGDEC, R138. -/
  | stegdec
  deriving DecidableEq, Repr

end Sys2Proof
end

