-- ==== Sys2Proof/WellFormed.lean ====
section
/-! DEFINITION. Which commands are well formed. An `Instr` is well formed by its types: a code point, a pixel and a
digit cannot be out of range (spec/30_encoding.md R45, spec/42_gzr_text_codec.md R92). A `Command` is raw, and two
things can be wrong with it: its reserved field (R42, R51) and the elements of a bit stream (R45). -/

namespace Sys2Proof

/-- The field `rsv`, word bits 7:4 (R42). -/
def Command.rsv (c : Command) : BitVec 4 := c.word.extractLsb' 4 4

/-- The field `op`, word bits 3:0 (R42). -/
def Command.op (c : Command) : BitVec 4 := c.word.extractLsb' 0 4

/-- The operations whose stream operand is a bit stream (R45): GZRDEC, BITS2TXT, FRAME, UNFRAMEH, UNFRAMEP, LSBEMB. -/
def Command.takesBits (c : Command) : Bool :=
  [0x2#4, 0x4#4, 0x5#4, 0x6#4, 0x7#4, 0x8#4].contains c.op

/-- "reserved, must be `0b0000`" (R42). -/
def Command.reservedZero (c : Command) : Bool := c.rsv == 0#4

/-- "A bit element is 0 or 1" (R45): every beat of a bit stream operand is 0 or 1. -/
def Command.bitsInRange (c : Command) : Bool :=
  !c.takesBits || c.s.all fun e => e == 0#8 || e == 1#8

/-- The command is one of the sixteen, with stream elements in range. Operands the operation ignores may hold
anything (R40). -/
def Command.wellFormed (c : Command) : Bool := c.reservedZero && c.bitsInRange

end Sys2Proof
end

