-- ==== Sys2Proof/Decode.lean ====
section
/-! DEFINITION. The decoder and the encoder of commands, from the operation map (spec/30_encoding.md R42, R43) and the
operand tables (R44, R45). The decoder is total: a command is one of the sixteen instructions or is rejected by
name. -/

namespace Sys2Proof

/-- Why a command word is no instruction. -/
inductive DecodeError where
  /-- Some word bit of 7:4 is set (R51). The machine answers IllegalCommand (R155). -/
  | reservedBits (word : BitVec 8)
  deriving DecidableEq, Repr

/-- A bit stream operand from its beats: the bit travels in bit 0 of a beat (log entry 10). -/
def bitsOfBeats (beats : List Byte) : Bits := beats.map fun e => e.getLsbD 0

/-- The beats of a bit stream operand, each 0 or 1 (R45). -/
def beatsOfBits (bits : Bits) : List Byte := bits.map fun d => if d then 1#8 else 0#8

/-- The operation map R43: the row of each command word, with the operands that row reads (R44, R45). All sixteen
words with `rsv` = 0 are assigned; every other word has a reserved bit set. -/
def decode (c : Command) : Except DecodeError Instr :=
  match c.word.toNat with
  | 0x00 => .ok (.tribgen c.a)
  | 0x01 => .ok (.gzrenc c.a)
  | 0x02 => .ok (.gzrdec (bitsOfBeats c.s))
  | 0x03 => .ok (.txt2bits c.s)
  | 0x04 => .ok (.bits2txt (bitsOfBeats c.s))
  | 0x05 => .ok (.frame (bitsOfBeats c.s))
  | 0x06 => .ok (.unframeh (bitsOfBeats c.s))
  | 0x07 => .ok (.unframep c.a (bitsOfBeats c.s))
  | 0x08 => .ok (.lsbemb (bitsOfBeats c.s))
  | 0x09 => .ok (.lsbext c.a c.b)
  | 0x0A => .ok .capq
  | 0x0B => .ok (.capchk c.a)
  | 0x0C => .ok (.gridld c.a c.b c.s)
  | 0x0D => .ok .gridrd
  | 0x0E => .ok (.stegenc c.s)
  | 0x0F => .ok .stegdec
  | _ => .error (.reservedBits c.word)

/-- The command that presents an instruction, the operands it ignores 0 and empty (R43 to R45). -/
def encode : Instr → Command
  | .tribgen threshold => ⟨0x00#8, threshold, 0#32, []⟩
  | .gzrenc n => ⟨0x01#8, n, 0#32, []⟩
  | .gzrdec digits => ⟨0x02#8, 0#32, 0#32, beatsOfBits digits⟩
  | .txt2bits text => ⟨0x03#8, 0#32, 0#32, text⟩
  | .bits2txt bits => ⟨0x04#8, 0#32, 0#32, beatsOfBits bits⟩
  | .frame payload => ⟨0x05#8, 0#32, 0#32, beatsOfBits payload⟩
  | .unframeh framed => ⟨0x06#8, 0#32, 0#32, beatsOfBits framed⟩
  | .unframep payloadBitLength framed => ⟨0x07#8, payloadBitLength, 0#32, beatsOfBits framed⟩
  | .lsbemb framed => ⟨0x08#8, 0#32, 0#32, beatsOfBits framed⟩
  | .lsbext start length => ⟨0x09#8, start, length, []⟩
  | .capq => ⟨0x0A#8, 0#32, 0#32, []⟩
  | .capchk payloadBitLen => ⟨0x0B#8, payloadBitLen, 0#32, []⟩
  | .gridld a b pixels => ⟨0x0C#8, a, b, pixels⟩
  | .gridrd => ⟨0x0D#8, 0#32, 0#32, []⟩
  | .stegenc text => ⟨0x0E#8, 0#32, 0#32, text⟩
  | .stegdec => ⟨0x0F#8, 0#32, 0#32, []⟩

/-- A command laid out as a number: the word in bits 7:0, `a` in bits 39:8, `b` in bits 71:40, an empty stream
(log entry 16). Bits at or above `nbits` are 0. -/
def commandOfTableBits (nbits w : Nat) : Command :=
  let v := w % 2 ^ nbits
  ⟨BitVec.ofNat 8 v, BitVec.ofNat 32 (v / 2 ^ 8), BitVec.ofNat 32 (v / 2 ^ 40), []⟩

/-- The instruction the decoder reads from a row of spec/opcode_table.json whose bits are `w`. -/
def decodeTableWord (nbits w : Nat) : Option Instr :=
  match decode (commandOfTableBits nbits w) with
  | .ok i => some i
  | .error _ => none

end Sys2Proof
end

