-- ==== Sys2Proof/Machine/State.lean ====
section
/-! DEFINITION. The state of the block (spec/10_state.md R11), what the host holds beside it (spec/70 R173), its
responses (spec/30_encoding.md R41), the stops of the model, and the state after reset (R170). -/

namespace Sys2Proof.Machine

/-- The pixel memory `PIX` (R19): pairs of a scan index and the pixel there. An unlisted index holds no pixel. -/
abbrev Memory := List Host.Cell

/-- The canonical form of `PIX`: scan indices strictly rising. An unlisted index reads as no value, so no listed
pixel can equal it. -/
abbrev Memory.wf (m : Memory) : Prop := m.Pairwise fun x y => x.1 < y.1

/-- The status of a response: exactly the eight codes of R151 that the spec names. -/
inductive Status where
  /-- Success. -/
  | ok
  /-- R152. -/
  | capacityExceeded
  /-- R153. -/
  | malformedHeader
  /-- R154: allocated, and raised by no operation. -/
  | unsupportedCodePoint
  /-- R155. -/
  | illegalCommand
  /-- R156. -/
  | weightTableInvalid
  /-- R157. -/
  | gridInvalid
  /-- R158. -/
  | operandError
  deriving DecidableEq, Repr

/-- A response (R41): status, scalar result and result stream, the stream as 32-bit beats (log entry 11). This is the
record with `t` a list that R56 asks of a model. -/
structure Response where
  status : Status
  val : Val
  t : List Word
  deriving DecidableEq, Repr

/-- What the host can do to the block (R173). -/
inductive HostInput where
  /-- The reset line, between commands (R171). -/
  | reset
  /-- A command (R40). -/
  | command (c : Command)
  deriving DecidableEq, Repr

/-- The seven items of R11, the host's side of a run (R173), and the counter of free values. -/
structure State where
  /-- `WT[0 .. 35]` (R12). -/
  wt : Vector Word Config.weightRegisters
  /-- `WLEN`, 6 bits (R13). -/
  wlen : BitVec 6
  /-- `WVALID` (R14). -/
  wvalid : Bool
  /-- `H` (R15). -/
  h : Dim
  /-- `W` (R15). -/
  w : Dim
  /-- `GVALID` (R16). -/
  gvalid : Bool
  /-- `PIX` (R19). -/
  pix : Memory
  /-- What the host has still to do, first first (R173, log entry 1). -/
  inputs : List HostInput
  /-- The responses the host has collected, oldest first (R173, log entry 2). -/
  responses : List Response
  /-- The model's own: how many TRIBGENs have drawn free values (log entry 6). -/
  freeCount : Nat
  deriving DecidableEq, Repr

/-- How a step can stop. -/
inductive Fault where
  /-- A meaning read a pixel below `H*W` that no GRIDLD has loaded although `GVALID` is 1. Raised by LSBEMB, LSBEXT,
  GRIDRD, STEGENC and STEGDEC in states no run reaches (log entry 5). Safe. -/
  | unloadedPixel
  deriving DecidableEq, Repr

/-- Why an instruction has no meaning here. -/
inductive Refusal where
  /-- An arm of `exec` that is not modelled yet. Safe. No arm of this model answers it. -/
  | notModelled (mnemonic : String)
  deriving DecidableEq, Repr

/-- The outcome of a meaning or a step. -/
abbrev Result := Host.Outcome State Fault Refusal

/-- The state right after reset (R170): both valid flags 0, nothing in `PIX`, and 0 in the registers whose contents
the spec leaves unspecified and its guards make unreadable (DESIGN CHOICE, log entries 3 to 6). -/
def State.reset : State where
  wt := Vector.replicate Config.weightRegisters 0#32
  wlen := 0#6
  wvalid := false
  h := 0#16
  w := 0#16
  gvalid := false
  pix := []
  inputs := []
  responses := []
  freeCount := 0

end Sys2Proof.Machine
end

