-- ==== Sys2Proof/Machine/Ops.lean ====
section
/-! DEFINITION. The shared operations: the byte accesses to `PIX` (spec/20_memory.md R32), the numbers on the `val`
port, answering a command, raising an exception (spec/60_exceptions.md R150), and taking the host's next input. -/

namespace Sys2Proof.Machine

/-! ### Pixel memory -/

/-- `MemRead(k, 1)` (R32): the pixel at scan index `k`, if there is one. No side effect. -/
def Memory.read : Memory → Nat → Option Byte
  | [], _ => none
  | (a, v) :: m, k => if a = k then some v else Memory.read m k

/-- `MemWrite(k, 1, v)` (R32): sets the pixel at scan index `k` and nothing else, keeping the canonical form. -/
def Memory.write : Memory → Nat → Byte → Memory
  | [], k, v => [(k, v)]
  | (a, u) :: m, k, v =>
    if k < a then (k, v) :: (a, u) :: m
    else if k = a then (k, v) :: m
    else (a, u) :: Memory.write m k v

/-- The memory that holds exactly `pixels`, at consecutive scan indices from `k` on. With `k` = 0 this is what the
writes of GRIDLD leave, since "the previous grid is lost" (R135). -/
def Memory.load : Nat → List Byte → Memory
  | _, [] => []
  | k, v :: pixels => (k, v) :: Memory.load (k + 1) pixels

/-- The pixels at scan indices `k .. k+n-1` in scan order, if all of them are there: `n` reads by `MemRead`. -/
def Memory.readSpan (m : Memory) : Nat → Nat → Option (List Byte)
  | _, 0 => some []
  | k, n + 1 =>
    match m.read k with
    | none => none
    | some v => (Memory.readSpan m (k + 1) n).map fun rest => v :: rest

/-- `N = H*W`, the number of pixels (R15, spec/44_lsb_channel.md). -/
def pixelCount (s : State) : Nat := s.h.toNat * s.w.toNat

/-! ### The `val` port -/

/-- A non-negative number on the 64-bit `val` port, bits above it 0 (R41). A number of 2^64 or more does not fit;
what the port then holds is a free value (log entry 8). -/
def portVal (n : Nat) : Val := if n < 2 ^ 64 then BitVec.ofNat 64 n else Config.wideVal n

/-- A non-negative number in a 32-bit half of `val`; a free value where it does not fit (log entry 9). -/
def portField (n : Nat) : Word := if n < 2 ^ 32 then BitVec.ofNat 32 n else Config.wideField n

/-- `val[63:32] = hi`, `val[31:0] = lo`. -/
def portPair (hi lo : Nat) : Val := portField hi ++ portField lo

/-! ### Responses and exceptions -/

/-- The status code on the 4-bit port (R151). -/
def statusCode : Status → BitVec 4
  | .ok => 0
  | .capacityExceeded => 1
  | .malformedHeader => 2
  | .unsupportedCodePoint => 3
  | .illegalCommand => 4
  | .weightTableInvalid => 5
  | .gridInvalid => 6
  | .operandError => 7

/-- The block produces its one response, and the host collects it (R40, R173). -/
def State.respond (s : State) (r : Response) : State := { s with responses := s.responses ++ [r] }

/-- `respond (OK, val, t)`: the command ends successfully in state `s`. -/
def succeed (val : Val) (t : List Word) (s : State) : Result := .next (s.respond ⟨.ok, val, t⟩)

/-- TAKING AN EXCEPTION, `raise <Cause>(info)` (R150): the command ends, no architectural state changes, the response
is the cause, the information value and an empty stream. Nothing is saved and control goes to the host (R162). There
is no return: the next command is the continuation (R163), so this is a next state like any other. -/
def raise (cause : Status) (info : Val) (s : State) : Result := .next (s.respond ⟨cause, info, []⟩)

/-- `IllegalCommand` with the command word, zero-extended (R151, R155): the answer to a command whose reserved field
is not 0. -/
def raiseIllegalCommand (word : BitVec 8) (s : State) : Result :=
  raise .illegalCommand (word.setWidth 64) s

/-- Goes on with what a read of pixels gave; a pixel that is not there stops the machine (log entry 5). -/
def withPixels {α : Type} (read : Option α) (go : α → Result) : Result :=
  match read with
  | some x => go x
  | none => .fault .unloadedPixel

/-! ### The host's inputs -/

/-- The host's next interaction (R173), if there is one: where the step fetches. -/
def nextInput (s : State) : Option HostInput := s.inputs.head?

/-- The state once the next input has been taken from the host. -/
def State.accept (s : State) : State := { s with inputs := s.inputs.tail }

/-- The reset line (R170, R171): the block is as after any reset (log entry 7). What the host holds stays. -/
def State.applyReset (s : State) : State :=
  { State.reset with inputs := s.inputs, responses := s.responses, freeCount := s.freeCount }

end Sys2Proof.Machine
end

