-- ==== Sys2Proof/Machine/Operands.lean ====
section
/-! DEFINITION. The operand forms (spec/30_encoding.md R44, R45) and the forms of the result stream (R45). -/

namespace Sys2Proof.Machine

/-- `sext_32(a)`: the operand as a two's-complement integer (R7, R44). -/
def sext32 (a : Word) : Int := a.toInt

/-- `zext_32(a)`: the operand as an unsigned integer (R7, R44). -/
def zext32 (a : Word) : Nat := a.toNat

/-- `a[15:0]`, a grid dimension of GRIDLD (R44). -/
def dimField (a : Word) : Dim := a.extractLsb' 0 16

/-- `a[31:16]`, which GRIDLD requires to be 0 (R44, R135). -/
def upperHalf (a : Word) : BitVec 16 := a.extractLsb' 16 16

/-- Weights on the result stream (R45). -/
def streamOfWeights (seq : List Nat) : List Word := seq.map fun x => BitVec.ofNat 32 x

/-- Bits on the result stream, each 0 or 1 (R45). -/
def streamOfBits (bits : Bits) : List Word := bits.map fun d => if d then 1#32 else 0#32

/-- Code points on the result stream, zero-extended (R45). -/
def streamOfText (text : List CodePoint) : List Word := text.map fun c => c.setWidth 32

/-- Pixels on the result stream, zero-extended (R45). -/
def streamOfPixels (pixels : List Byte) : List Word := pixels.map fun v => v.setWidth 32

end Sys2Proof.Machine
end

