-- ==== Sys2Proof/Machine/Flags.lean ====
section
/-! DEFINITION. The block's only flags, `WVALID` and `GVALID` (spec/10_state.md R14, R16, R18), and the registers each
of them guards. -/

namespace Sys2Proof.Machine

/-- `if WVALID = 0: raise WeightTableInvalid` (spec/60_exceptions.md R156), else go on. -/
def requireTable (s : State) (go : Result) : Result :=
  if s.wvalid then go else raise .weightTableInvalid 0#64 s

/-- `if GVALID = 0: raise GridInvalid` (R157), else go on. -/
def requireGrid (s : State) (go : Result) : Result :=
  if s.gvalid then go else raise .gridInvalid 0#64 s

/-- `[WT[0], ..., WT[WLEN-1]]` as integers (R12). -/
def tableWeights (s : State) : List Nat := (s.wt.toList.take s.wlen.toNat).map BitVec.toNat

/-- What TRIBGEN leaves in `WT[i]` (R61): the term of index `i`, and a free value at or above the new `WLEN`
(log entry 6). -/
def weightEntry (seq : List Nat) (freeCount i : Nat) : Word :=
  match seq[i]? with
  | some x => BitVec.ofNat 32 x
  | none => Config.freeWeight freeCount i

/-- The register file TRIBGEN leaves, all 36 registers (R61). -/
def weightFile (seq : List Nat) (freeCount : Nat) : Vector Word Config.weightRegisters :=
  ⟨((List.range Config.weightRegisters).map (weightEntry seq freeCount)).toArray, by simp⟩

/-- The state writes of TRIBGEN (R61): the whole table, `WLEN`, and `WVALID <- 1`. -/
def State.setTable (s : State) (seq : List Nat) : State :=
  { s with
    wt := weightFile seq s.freeCount
    wlen := BitVec.ofNat 6 seq.length
    wvalid := true
    freeCount := s.freeCount + 1 }

/-- The state writes of GRIDLD (R135): `H`, `W`, all of `PIX`, and `GVALID <- 1`. -/
def State.setGrid (s : State) (h w : Dim) (pixels : List Byte) : State :=
  { s with h := h, w := w, pix := Memory.load 0 pixels, gvalid := true }

/-- A write of `PIX` alone (LSBEMB, STEGENC). -/
def State.setPix (s : State) (m : Memory) : State := { s with pix := m }

end Sys2Proof.Machine
end

