-- ==== Sys2Proof/Machine/Channel.lean ====
section
/-! DEFINITION. The lsb_embedder_array and lsb_extractor_array units: CAPQ, CAPCHK, LSBEMB, LSBEXT
(spec/44_lsb_channel.md). -/

namespace Sys2Proof.Machine

/-- `capacityBytes` of a grid of `n` pixels (R115). -/
def capacityBytes (n : Nat) : Nat := n / 8

/-- `requiredBytes(payloadBitLen)` (R115); the header is not counted. -/
def requiredBytes (payloadBitLen : Nat) : Nat := payloadBitLen / 8 + 1

/-- The capacity check (R115, R117): `CapacityExceeded` when the requirement exceeds the capacity, else go on. -/
def checkCapacity (payloadBitLen : Nat) (s : State) (go : Result) : Result :=
  if requiredBytes payloadBitLen > capacityBytes (pixelCount s) then
    raise .capacityExceeded (portPair (capacityBytes (pixelCount s)) (requiredBytes payloadBitLen)) s
  else go

/-- `(old AND 0xFE) OR bit` (R118). -/
def embedPixel (old : Byte) (bit : Bool) : Byte :=
  (old &&& Config.lsbClearMask) ||| (if bit then 1#8 else 0#8)

/-- `pixel AND 1` (R25, R120). -/
def pixelLsb (pixel : Byte) : Bool := pixel.getLsbD 0

/-- The loop of LSBEMB (R119): the bits into consecutive pixels from scan index `k` on, each a read and a write. -/
def embedFrom : Nat → Bits → Memory → Option Memory
  | _, [], m => some m
  | k, bit :: bits, m =>
    match m.read k with
    | some old => embedFrom (k + 1) bits (m.write k (embedPixel old bit))
    | none => none

/-- `embed(PIX, framedBits)` on the loaded grid (R118): bits beyond the last pixel are dropped. -/
def embedGrid (framed : Bits) (s : State) : Option Memory :=
  embedFrom 0 (framed.take (pixelCount s)) s.pix

/-- `extractBits(PIX, start, length)` on the loaded grid (R120, R121): positions at or above `H*W` are dropped. -/
def extractGrid (start length : Nat) (s : State) : Option Bits :=
  (s.pix.readSpan start (min (start + length) (pixelCount s) - start)).map fun pixels => pixels.map pixelLsb

/-- CAPQ (R116). -/
def execCapq (s : State) : Result :=
  requireGrid s <|
    succeed (portPair (pixelCount s) (capacityBytes (pixelCount s))) [] s

/-- CAPCHK (R117). -/
def execCapchk (payloadBitLen : Word) (s : State) : Result :=
  requireGrid s <|
    checkCapacity (zext32 payloadBitLen) s <|
      succeed (portVal (requiredBytes (zext32 payloadBitLen))) [] s

/-- LSBEMB (R119). -/
def execLsbemb (framed : Bits) (s : State) : Result :=
  requireGrid s <|
    withPixels (embedGrid framed s) fun m =>
      succeed (portVal (min framed.length (pixelCount s))) [] (s.setPix m)

/-- LSBEXT (R121). -/
def execLsbext (start length : Word) (s : State) : Result :=
  requireGrid s <|
    withPixels (extractGrid (zext32 start) (zext32 length) s) fun out =>
      succeed (portVal out.length) (streamOfBits out) s

end Sys2Proof.Machine
end

