-- ==== Sys2Proof/Machine/Sequences.lean ====
section
/-! DEFINITION. The sequence primitives of the spec's notation (spec/00_scope.md R8) and the predicate of R9. -/

namespace Sys2Proof.Machine

/-- `s[a..b)`: the elements of index `a <= i < min(b, len(s))`, the upper bound clipped (R8). -/
def slice {α : Type} (s : List α) (a b : Nat) : List α := (s.take b).drop a

/-- `lstrip0(s)`: every leading 0 removed, up to the first 1 (R8). -/
def lstrip0 (s : Bits) : Bits := s.dropWhile fun d => !d

/-- `lpad0(s, w)`: zeros prepended until the length is at least `w` (R8). -/
def lpad0 (s : Bits) (w : Nat) : Bits := List.replicate (w - s.length) false ++ s

/-- `bin32(v)`: 32 digits, index `i` the bit of weight `2^(31-i)` (R8). -/
def bin32 (v : Nat) : Bits := (List.range 32).map fun i => v.testBit (31 - i)

/-- `unbin(s)`: the number whose binary digits are `s`, the first most significant (R8). -/
def unbin (s : Bits) : Nat := s.foldl (fun v d => 2 * v + d.toNat) 0

/-- The first `n` consecutive 9-digit pieces of `s`. -/
def chunks : Nat → Bits → List Bits
  | 0, _ => []
  | n + 1, s => s.take 9 :: chunks n (s.drop 9)

/-- `chunks9(s)`: the `floor(len(s)/9)` complete 9-digit pieces (R8). -/
def chunks9 (s : Bits) : List Bits := chunks (s.length / 9) s

/-- `verifyNo111(s)`: no three consecutive digits are all 1 (R9). A predicate of the notation, no operation. -/
def verifyNo111 : Bits → Bool
  | a :: b :: c :: s => !(a && b && c) && verifyNo111 (b :: c :: s)
  | _ => true

end Sys2Proof.Machine
end

