-- ==== Sys2Proof/Machine/Framer.lean ====
section
/-! DEFINITION. The bitstream_framer unit: FRAME, UNFRAMEH, UNFRAMEP (spec/43_bitstream_framer.md). -/

namespace Sys2Proof.Machine

/-- `frame(payloadBits)` (R100). -/
def frame (payload : Bits) : Bits := bin32 payload.length ++ payload

/-- `unframeHeader(framedBits)` (R102). -/
def unframeHeader (framed : Bits) : Nat := unbin (slice framed 0 Config.headerWidth)

/-- `unframePayload(framedBits, payloadBitLength)` (R104), the upper bound clipped. -/
def unframePayload (framed : Bits) (payloadBitLength : Nat) : Bits :=
  slice framed Config.headerWidth (Config.headerWidth + payloadBitLength)

/-- FRAME (R101). -/
def execFrame (payload : Bits) (s : State) : Result :=
  if payload.length ≥ 2 ^ 32 then raise .operandError 0#64 s
  else succeed (portVal (32 + payload.length)) (streamOfBits (frame payload)) s

/-- UNFRAMEH (R103). -/
def execUnframeh (framed : Bits) (s : State) : Result :=
  if framed.length < Config.headerWidth then raise .malformedHeader (portPair framed.length 0) s
  else succeed (portVal (unframeHeader framed)) [] s

/-- UNFRAMEP (R105). -/
def execUnframep (payloadBitLength : Word) (framed : Bits) (s : State) : Result :=
  let p := unframePayload framed (zext32 payloadBitLength)
  succeed (portVal p.length) (streamOfBits p) s

end Sys2Proof.Machine
end

