-- ==== Sys2Proof/Machine/Generator.lean ====
section
/-! DEFINITION. The tribonacci_weight_generator unit: `generate` and TRIBGEN (spec/40_tribonacci_weight_generator.md). -/

namespace Sys2Proof.Machine

/-- The growth loop of `generate` (R60) from the last three terms `x`, `y`, `z`: the terms it appends. The first
argument bounds the number of passes. -/
def growTerms : Nat → Int → Nat → Nat → Nat → List Nat
  | 0, _, _, _, _ => []
  | passes + 1, threshold, x, y, z =>
    if (z : Int) < threshold then
      if ((z + y + x : Nat) : Int) > threshold then []
      else (z + y + x) :: growTerms passes threshold y z (z + y + x)
    else []

/-- `generate(threshold)` (R60): the seed whole, then the loop. Every pass raises the last term, so a threshold allows
no more than `threshold` passes and the bound never cuts the loop short (log entry 18). -/
def generate (threshold : Int) : List Nat := [1, 2, 4] ++ growTerms threshold.toNat threshold 1 2 4

/-- TRIBGEN (R61). -/
def execTribgen (threshold : Word) (s : State) : Result :=
  let seq := generate (sext32 threshold)
  succeed (portVal seq.length) (streamOfWeights seq) (s.setTable seq)

end Sys2Proof.Machine
end

