-- ==== Sys2Proof/Machine/IntegerCodec.lean ====
section
/-! DEFINITION. The gzr_integer_encoder and gzr_integer_decoder units: GZRENC and GZRDEC
(spec/41_gzr_integer_codec.md). -/

namespace Sys2Proof.Machine

/-- The greedy walk of R70 over weights listed largest first, from the running remainder: its digits, largest weight
first. -/
def greedyWalk : List Nat → Nat → Bits
  | [], _ => []
  | x :: smaller, r => if x ≤ r then true :: greedyWalk smaller (r - x) else false :: greedyWalk smaller r

/-- `greedy(n, seq)`, the aligned greedy string (R70): digit `i` belongs to weight `seq[i]`. -/
def greedy (n : Nat) (seq : List Nat) : Bits := (greedyWalk seq.reverse n).reverse

/-- `integerToGzr(n, seq)` (R70): greedy fill, reverse, left-strip zeros, literally. -/
def integerToGzr (n : Int) (seq : List Nat) : Bits :=
  if n ≤ 0 then [false] else lstrip0 (greedy n.toNat seq)

/-- `gzrToInteger(digits, seq)` (R73): the sum of the weights whose digit is 1; digits beyond the sequence are
ignored. -/
def gzrToInteger : Bits → List Nat → Nat
  | d :: digits, x :: seq => (if d then x else 0) + gzrToInteger digits seq
  | _, _ => 0

/-- GZRENC (R71). -/
def execGzrenc (n : Word) (s : State) : Result :=
  requireTable s <|
    let d := integerToGzr (sext32 n) (tableWeights s)
    succeed (portVal d.length) (streamOfBits d) s

/-- GZRDEC (R74). -/
def execGzrdec (digits : Bits) (s : State) : Result :=
  requireTable s <|
    succeed (portVal (gzrToInteger digits (tableWeights s))) [] s

end Sys2Proof.Machine
end

