-- ==== Sys2Proof/Machine/TextCodec.lean ====
section
/-! DEFINITION. The gzr_text_to_bitstream and gzr_bitstream_to_text units: TXT2BITS and BITS2TXT
(spec/42_gzr_text_codec.md). -/

namespace Sys2Proof.Machine

/-- `W255 = generate(255)` (R89). -/
def w255 : List Nat := generate Config.textThreshold

/-- The character slot of one code point (R85). -/
def charSlot (c : Byte) : Bits := lpad0 (integerToGzr c.toNat w255) Config.slotWidth

/-- `textToGzrBits(text)` (R85). -/
def textToGzrBits (text : List Byte) : Bits := text.flatMap charSlot

/-- `gzrBitsToText(bits)` (R86): a slot of value 0 yields no character. -/
def gzrBitsToText (bits : Bits) : List CodePoint :=
  (chunks9 bits).filterMap fun chunk =>
    let v := gzrToInteger chunk w255
    if 0 < v then some (BitVec.ofNat 9 v) else none

/-- TXT2BITS (R87). -/
def execTxt2bits (text : List Byte) (s : State) : Result :=
  succeed (portVal (9 * text.length)) (streamOfBits (textToGzrBits text)) s

/-- BITS2TXT (R88). -/
def execBits2txt (bits : Bits) (s : State) : Result :=
  let x := gzrBitsToText bits
  succeed (portVal x.length) (streamOfText x) s

end Sys2Proof.Machine
end

