-- ==== Sys2Proof/Machine/Composite.lean ====
section
/-! DEFINITION. The composite operations STEGENC and STEGDEC (spec/45_grid_and_composite.md). -/

namespace Sys2Proof.Machine

/-- STEGENC (R137): encode, check, frame, embed, in one command. -/
def execStegenc (text : List Byte) (s : State) : Result :=
  requireGrid s <|
    let p := textToGzrBits text
    checkCapacity p.length s <|
      let f := frame p
      withPixels (embedGrid f s) fun m =>
        succeed (portVal f.length) [] (s.setPix m)

/-- STEGDEC (R138): header, declared length against the grid, payload, text, in one command. -/
def execStegdec (s : State) : Result :=
  requireGrid s <|
    let n := pixelCount s
    if n < Config.headerWidth then raise .malformedHeader (portPair n 0) s
    else
      withPixels (extractGrid 0 Config.headerWidth s) fun header =>
        let declared := unframeHeader header
        if declared > n - Config.headerWidth then raise .malformedHeader (portPair n declared) s
        else
          withPixels (extractGrid Config.headerWidth declared s) fun p =>
            let x := gzrBitsToText p
            succeed (portVal x.length) (streamOfText x) s

end Sys2Proof.Machine
end

