-- ==== Sys2Proof/Machine/Grid.lean ====
section
/-! DEFINITION. The host's access to the grid: GRIDLD and GRIDRD (spec/45_grid_and_composite.md). -/

namespace Sys2Proof.Machine

/-- GRIDLD (R135). -/
def execGridld (a b : Word) (pixels : List Byte) (s : State) : Result :=
  if upperHalf a ≠ 0#16 ∨ upperHalf b ≠ 0#16 then raise .operandError 1#64 s
  else if pixels.length ≠ (dimField a).toNat * (dimField b).toNat then raise .operandError 2#64 s
  else
    succeed (portVal ((dimField a).toNat * (dimField b).toNat)) [] (s.setGrid (dimField a) (dimField b) pixels)

/-- GRIDRD (R136). -/
def execGridrd (s : State) : Result :=
  requireGrid s <|
    withPixels (s.pix.readSpan 0 (pixelCount s)) fun pixels =>
      succeed (0#32 ++ (s.h ++ s.w)) (streamOfPixels pixels) s

end Sys2Proof.Machine
end

