-- ==== Sys2Proof/Machine/Dispatch.lean ====
section
/-! DEFINITION. One arm per instruction: which meaning it has (spec/30_encoding.md R43). -/

namespace Sys2Proof.Machine

def exec (i : Instr) (s : State) : Host.Outcome State Fault Refusal :=
  match i with
  | .tribgen threshold => Sys2Proof.Machine.execTribgen threshold s
  | .gzrenc n => Sys2Proof.Machine.execGzrenc n s
  | .gzrdec digits => Sys2Proof.Machine.execGzrdec digits s
  | .txt2bits text => Sys2Proof.Machine.execTxt2bits text s
  | .bits2txt bits => Sys2Proof.Machine.execBits2txt bits s
  | .frame payload => Sys2Proof.Machine.execFrame payload s
  | .unframeh framed => Sys2Proof.Machine.execUnframeh framed s
  | .unframep payloadBitLength framed => Sys2Proof.Machine.execUnframep payloadBitLength framed s
  | .lsbemb framed => Sys2Proof.Machine.execLsbemb framed s
  | .lsbext start length => Sys2Proof.Machine.execLsbext start length s
  | .capq => Sys2Proof.Machine.execCapq s
  | .capchk payloadBitLen => Sys2Proof.Machine.execCapchk payloadBitLen s
  | .gridld a b pixels => Sys2Proof.Machine.execGridld a b pixels s
  | .gridrd => Sys2Proof.Machine.execGridrd s
  | .stegenc text => Sys2Proof.Machine.execStegenc text s
  | .stegdec => Sys2Proof.Machine.execStegdec s

end Sys2Proof.Machine
end

