-- ==== Sys2Proof/Machine/Step.lean ====
section
/-! DEFINITION. One step of the block: the host's next input is taken, and a command is decoded, executed and answered
as one atomic step (spec/10_state.md R10, spec/30_encoding.md R40). -/

namespace Sys2Proof.Machine

/-- One step. With nothing from the host the block stays idle (R171, log entry 12). A reset takes effect between
commands (R171). A command whose reserved field is not 0 raises IllegalCommand before anything else (R155). -/
def step (s : State) : Host.Outcome State Fault Refusal :=
  match nextInput s with
  | none => .next s
  | some .reset => .next s.accept.applyReset
  | some (.command c) =>
    match decode c with
    | .error (.reservedBits word) => raiseIllegalCommand word s.accept
    | .ok i => exec i s.accept

/-- The state with a command of the opcode table as the host's next input (log entries 1 and 16). -/
def State.withFetchWord (s : State) (nbits w : Nat) : State :=
  { s with inputs := .command (commandOfTableBits nbits w) :: s.inputs }

end Sys2Proof.Machine
end

