-- ==== Sys2Proof/Machine/HostSequences.lean ====
section
/-! DEFINITION. The host-side sequences of commands that spec/30_encoding.md R55 names, as functions of the host over
the step. They are no instructions: every command in them goes through the command port. -/

namespace Sys2Proof.Machine

/-- What the host has after a command: the response it collected and the state, or nothing if the machine stopped. -/
abbrev HostRun := Option (Response × State)

/-- The host issues one command, ahead of whatever else it has in mind, and collects the response (R173, R175). -/
def issue (i : Instr) (s : State) : HostRun :=
  match step { s with inputs := .command (encode i) :: s.inputs } with
  | .next t => t.responses.getLast?.map fun r => (r, t)
  | _ => none

/-- "A sequence stops at the first command whose status is not OK" (R55). That the host is then left with that
command's response and the state is the model's choice (DESIGN CHOICE, log entry 19). -/
def whileOk (run : HostRun) (go : Response → State → HostRun) : HostRun :=
  match run with
  | some (r, t) => if r.status = .ok then go r t else some (r, t)
  | none => none

/-- A result stream of bits as the host reads it. -/
def bitsOfStream (t : List Word) : Bits := t.map fun x => x.getLsbD 0

/-- `TRIBGEN255`. -/
def hostTribgen255 (s : State) : HostRun := issue (.tribgen 255#32) s

/-- `ENCODE.SEQ text`. A payload of 2^32 bits or more has no operand for CAPCHK, so the host has no sequence for it
(log entry 17). -/
def hostEncodeSeq (text : List Byte) (s : State) : HostRun :=
  whileOk (issue (.txt2bits text) s) fun r s =>
    let p := bitsOfStream r.t
    if p.length < 2 ^ 32 then
      whileOk (issue (.capchk (BitVec.ofNat 32 p.length)) s) fun _ s =>
        whileOk (issue (.frame p) s) fun r s =>
          issue (.lsbemb (bitsOfStream r.t)) s
    else none

/-- `GETLEN`. -/
def hostGetLen (s : State) : HostRun :=
  whileOk (issue (.lsbext 0#32 32#32) s) fun r s =>
    issue (.unframeh (bitsOfStream r.t)) s

/-- `DECODE.SRC`. -/
def hostDecodeSrc (s : State) : HostRun :=
  whileOk (hostGetLen s) fun r s =>
    whileOk (issue (.lsbext 32#32 (r.val.setWidth 32)) s) fun r s =>
      issue (.bits2txt (bitsOfStream r.t)) s

/-- `UNFRAME f`. -/
def hostUnframe (f : Bits) (s : State) : HostRun :=
  whileOk (issue (.unframeh f) s) fun r s =>
    issue (.unframep (r.val.setWidth 32) f) s

/-- `GZRENC.PAD n`: GZRENC's response, the digits padded by the host to `wlen`, the `val` of its last TRIBGEN, and the
state. A GZRENC whose status is not OK stops the sequence: the host has its response and the state, and no digits. What
a stopped sequence hands the host is the model's choice (DESIGN CHOICE, log entry 19). -/
def hostGzrencPad (n : Word) (wlen : Nat) (s : State) : Option (Response × Option Bits × State) :=
  (issue (.gzrenc n) s).map fun (r, t) =>
    (r, if r.status = .ok then some (lpad0 (bitsOfStream r.t) wlen) else none, t)

end Sys2Proof.Machine
end

