-- ==== Sys2Proof/Safety.lean ====
section
/-! DEFINITION. The terms claims use: the terms of the recurrence, which operands and exceptions a row of the operation
map names, the invariants of the state, and what it is for two states to agree. -/

namespace Sys2Proof

/-- `T(i)`: `T(0), T(1), T(2)` = 1, 2, 4, then the sum of the last three (spec/40_tribonacci_weight_generator.md
R63). -/
def trib : Nat → Nat
  | 0 => 1
  | 1 => 2
  | 2 => 4
  | i + 3 => trib (i + 2) + trib (i + 1) + trib i

/-- The first `n` terms of the recurrence. -/
def tribPrefix (n : Nat) : List Nat := (List.range n).map trib

/-- The rows whose scalar operand `a` is read (spec/30_encoding.md R44). -/
def Command.usesA (c : Command) : Bool := [0x0#4, 0x1#4, 0x7#4, 0x9#4, 0xB#4, 0xC#4].contains c.op

/-- The rows whose scalar operand `b` is read (R44). -/
def Command.usesB (c : Command) : Bool := [0x9#4, 0xC#4].contains c.op

/-- The rows whose stream operand is read (R45): the bit streams, the two texts and the pixels. -/
def Command.usesStream (c : Command) : Bool := c.takesBits || [0x3#4, 0xC#4, 0xE#4].contains c.op

/-- The same command with the operands its row ignores set to 0 and empty (R40, R44, R45). -/
def Command.canonical (c : Command) : Command where
  word := c.word
  a := if c.usesA then c.a else 0#32
  b := if c.usesB then c.b else 0#32
  s := if c.usesStream then c.s else []

namespace Machine

/-- The exceptions each instruction may raise (spec/60_exceptions.md R151, column "raised by"). -/
def mayRaise : Instr → List Status
  | .tribgen _ => []
  | .gzrenc _ => [.weightTableInvalid]
  | .gzrdec _ => [.weightTableInvalid]
  | .txt2bits _ => []
  | .bits2txt _ => []
  | .frame _ => [.operandError]
  | .unframeh _ => [.malformedHeader]
  | .unframep _ _ => []
  | .lsbemb _ => [.gridInvalid]
  | .lsbext _ _ => [.gridInvalid]
  | .capq => [.gridInvalid]
  | .capchk _ => [.gridInvalid, .capacityExceeded]
  | .gridld _ _ _ => [.operandError]
  | .gridrd => [.gridInvalid]
  | .stegenc _ => [.gridInvalid, .capacityExceeded]
  | .stegdec => [.gridInvalid, .malformedHeader]

/-- The instructions that write no state (spec/10_state.md R23). -/
def writesNothing : Instr → Bool
  | .tribgen _ => false
  | .gzrenc _ => true
  | .gzrdec _ => true
  | .txt2bits _ => true
  | .bits2txt _ => true
  | .frame _ => true
  | .unframeh _ => true
  | .unframep _ _ => true
  | .lsbemb _ => false
  | .lsbext _ _ => true
  | .capq => true
  | .capchk _ => true
  | .gridld _ _ _ => false
  | .gridrd => true
  | .stegenc _ => false
  | .stegdec => true

/-- The instructions that read the grid and therefore need one (spec/60_exceptions.md R157). -/
def readsGrid : Instr → Bool
  | .tribgen _ => false
  | .gzrenc _ => false
  | .gzrdec _ => false
  | .txt2bits _ => false
  | .bits2txt _ => false
  | .frame _ => false
  | .unframeh _ => false
  | .unframep _ _ => false
  | .lsbemb _ => true
  | .lsbext _ _ => true
  | .capq => true
  | .capchk _ => true
  | .gridld _ _ _ => false
  | .gridrd => true
  | .stegenc _ => true
  | .stegdec => true

/-- The instructions that change pixels of a loaded grid or replace the grid. -/
def writesGrid : Instr → Bool
  | .tribgen _ => false
  | .gzrenc _ => false
  | .gzrdec _ => false
  | .txt2bits _ => false
  | .bits2txt _ => false
  | .frame _ => false
  | .unframeh _ => false
  | .unframep _ _ => false
  | .lsbemb _ => true
  | .lsbext _ _ => false
  | .capq => false
  | .capchk _ => false
  | .gridld _ _ _ => true
  | .gridrd => false
  | .stegenc _ => true
  | .stegdec => false

/-- What a completed TRIBGEN leaves (spec/10_state.md R12, R13): while `WVALID` = 1, `WLEN` is 3 to 36 and the
meaningful entries are the terms of the recurrence. -/
def State.TableInv (s : State) : Prop :=
  s.wvalid = true →
    3 ≤ s.wlen.toNat ∧ s.wlen.toNat ≤ Config.weightRegisters ∧ tableWeights s = tribPrefix s.wlen.toNat

/-- What a completed GRIDLD leaves (R15, R19): while `GVALID` = 1, exactly the scan indices below `H*W` hold a
pixel. -/
def State.GridInv (s : State) : Prop :=
  s.gvalid = true → ∀ k, (s.pix.read k).isSome = true ↔ k < pixelCount s

/-- The invariant every step keeps: the canonical form of `PIX`, the table and the grid. -/
def State.Inv (s : State) : Prop := s.pix.wf ∧ s.TableInv ∧ s.GridInv

/-- A grid is loaded: `GVALID` = 1 and every scan index of the grid holds a pixel. -/
def State.GridLoaded (s : State) : Prop := s.gvalid = true ∧ ∀ k < pixelCount s, (s.pix.read k).isSome = true

/-- The weight table and its flag are the same in both states. -/
def SameTable (s t : State) : Prop := t.wt = s.wt ∧ t.wlen = s.wlen ∧ t.wvalid = s.wvalid

/-- The grid registers and flag are the same in both states; `PIX` is not spoken of. -/
def SameGridRegs (s t : State) : Prop := t.h = s.h ∧ t.w = s.w ∧ t.gvalid = s.gvalid

/-- The seven items of R11 are the same in both states. -/
def SameBlock (s t : State) : Prop := SameTable s t ∧ SameGridRegs s t ∧ t.pix = s.pix

/-- The block has answered `r` between `s` and `t`, once, and has taken nothing else from the host. -/
def Answered (s t : State) (r : Response) : Prop :=
  t.responses = s.responses ++ [r] ∧ t.inputs = s.inputs

/-- A result stream carries the integers `l`, in order (spec/00_scope.md R8). -/
def Carries (ts : List Word) (l : List Nat) : Prop := ts.map BitVec.toNat = l

/-- The two states differ at most in what the valid flags guard and in weight registers at or above `WLEN`: the values
the spec calls unspecified (R12, R14, R16, spec/70_reset_and_hazards.md R170). -/
def Indistinguishable (s t : State) : Prop :=
  t.wvalid = s.wvalid ∧ t.gvalid = s.gvalid ∧
  (s.wvalid = true → t.wlen = s.wlen ∧ tableWeights t = tableWeights s) ∧
  (s.gvalid = true → t.h = s.h ∧ t.w = s.w ∧ t.pix = s.pix) ∧
  t.inputs = s.inputs ∧ t.responses = s.responses

/-- The instructions one after the other, as commands of one run (spec/20_memory.md R36). -/
def execAll : List Instr → State → Result
  | [], s => .next s
  | i :: rest, s =>
    match exec i s with
    | .next t => execAll rest t
    | .fault r => .fault r
    | .refused r => .refused r

end Machine
end Sys2Proof
end

