-- ==== Sys2Proof/Certificates/Slice0/Obligations.lean ====
section
/-! DEFINITION. The statements for the provers, in the order: commands and decoding, the step, the sixteen
instructions, frames and whole-machine rules, invariants, the laws of the data formats, and laws over several
commands. -/

open Sys2Proof Sys2Proof.Machine

/-! ### Commands and decoding -/

/-- Every instruction, with every value of its operands, is read back from the command that presents it, and that
command is well formed (spec/30_encoding.md R40 to R45). -/
def Obligations.DecodeReadsBackEncode : Prop :=
  ∀ i : Instr, decode (encode i) = .ok i ∧ (encode i).wellFormed = true

/-- Every well-formed command that decodes is the presentation of its instruction, up to the operands its row ignores:
no bit the row reads is dropped (R40, R44, R45). -/
def Obligations.EncodeReadsBackDecode : Prop :=
  ∀ (c : Command) (i : Instr), c.wellFormed = true → decode c = .ok i → encode i = c.canonical

/-- "An operand an operation does not use is ignored, whatever its value" (R40). -/
def Obligations.DecodeIgnoresUnusedOperands : Prop :=
  ∀ c : Command, decode c.canonical = decode c

/-- "All sixteen `op` values with `rsv = 0` are legal" and every other word is rejected with its word (R42, R51). -/
def Obligations.DecodeRejectsExactlyReservedWords : Prop :=
  ∀ c : Command,
    (c.rsv = 0#4 → ∃ i, decode c = .ok i) ∧ (c.rsv ≠ 0#4 → decode c = .error (.reservedBits c.word))

/-- Six commands the spec writes out: the example of R54, and of spec/95_test_vectors.md section 9 P4 row 1, P2 row 3, P4
row 4 and P1 row 3, and section 8 row 11. -/
def Obligations.SpecCommandsDecodeAsWritten : Prop :=
  decode ⟨0x09#8, 0x00000000#32, 0x00000020#32, []⟩ = .ok (.lsbext 0#32 32#32) ∧
  decode ⟨0x00#8, 0x000000FF#32, 0x00000000#32, []⟩ = .ok (.tribgen 255#32) ∧
  decode ⟨0x0B#8, 0x00000012#32, 0#32, []⟩ = .ok (.capchk 18#32) ∧
  decode ⟨0x02#8, 0x00000000#32, 0x00000000#32, [0, 1, 0, 0, 0, 0, 0, 0, 0]⟩ =
    .ok (.gzrdec [false, true, false, false, false, false, false, false, false]) ∧
  decode ⟨0x0E#8, 0#32, 0#32, [72, 101, 108, 108, 111, 32, 71, 90, 82, 33]⟩ =
    .ok (.stegenc [72, 101, 108, 108, 111, 32, 71, 90, 82, 33]) ∧
  decode ⟨0xF1#8, 5#32, 0#32, []⟩ = .error (.reservedBits 0xF1#8)

/-! ### The step -/

/-- One step takes the host's next command and runs the instruction it decodes to, in the state without that command:
one command, one atomic step (spec/10_state.md R10). That the host's inputs stand in a list is the model's form (log
entry 1). -/
def Obligations.StepRunsTheDecodedInstruction : Prop :=
  ∀ (s : State) (c : Command) (rest : List HostInput) (i : Instr),
    s.inputs = .command c :: rest → decode c = .ok i → step s = exec i { s with inputs := rest }

/-- A word with a reserved bit set raises IllegalCommand with the word as information, whatever the operands and the
state, and changes no state of the block (R51, R155). -/
def Obligations.ReservedWordRaisesIllegalCommand : Prop :=
  ∀ (s : State) (c : Command) (rest : List HostInput),
    s.inputs = .command c :: rest → c.rsv ≠ 0#4 →
    ∃ t v, step s = .next t ∧ SameBlock s t ∧ t.inputs = rest ∧
      t.responses = s.responses ++ [⟨.illegalCommand, v, []⟩] ∧ v.toNat = c.word.toNat

/-- Reset between commands clears both valid flags, answers nothing and leaves the host's side alone (R170, R171).
With nothing from the host the block stays as it is; that clause is the model's choice (log entry 12). -/
def Obligations.ResetClearsTheValidFlags : Prop :=
  ∀ s : State,
    (∀ rest, s.inputs = .reset :: rest →
      ∃ t, step s = .next t ∧ t.wvalid = false ∧ t.gvalid = false ∧ t.inputs = rest ∧
        t.responses = s.responses) ∧
    (s.inputs = [] → step s = .next s)

/-- After reset both flags are 0, so every instruction that reads the table or the grid raises and none is answered
from unspecified contents (R170, R172). -/
def Obligations.NothingIsReadableAfterReset : Prop :=
  ∀ i : Instr, .weightTableInvalid ∈ mayRaise i ∨ .gridInvalid ∈ mayRaise i →
    ∃ r, exec i State.reset = .next (State.reset.respond r) ∧
      (r.status = .weightTableInvalid ∨ r.status = .gridInvalid) ∧ r.val = 0#64 ∧ r.t = []

/-! ### The sixteen instructions -/

/-- TRIBGEN (spec/40_tribonacci_weight_generator.md R61): word 0x00, `b` and the stream ignored; the table, `WLEN` and
`WVALID` are set, the grid stays, the weights and their number are the result. -/
def Obligations.TribgenReplacesTheTable : Prop :=
  ∀ (a b : Word) (str : List Byte) (s : State),
    decode ⟨0x00#8, a, b, str⟩ = .ok (.tribgen a) ∧
    ∃ t v ts, exec (.tribgen a) s = .next t ∧ Answered s t ⟨.ok, v, ts⟩ ∧
      Carries ts (generate a.toInt) ∧ v.toNat = (generate a.toInt).length ∧
      t.wvalid = true ∧ t.wlen.toNat = (generate a.toInt).length ∧ tableWeights t = generate a.toInt ∧
      SameGridRegs s t ∧ t.pix = s.pix

/-- GZRENC (spec/41_gzr_integer_codec.md R71): the literal encoder over the stored table, no state written;
WeightTableInvalid before any TRIBGEN; the digit 0 for `n <= 0`; with a table a TRIBGEN left, 1 to `WLEN` digits, the
first of them 1 for `n >= 1`. -/
def Obligations.GzrencEncodesOverTheTable : Prop :=
  ∀ (a b : Word) (str : List Byte) (s : State),
    decode ⟨0x01#8, a, b, str⟩ = .ok (.gzrenc a) ∧
    (s.wvalid = false → exec (.gzrenc a) s = .next (s.respond ⟨.weightTableInvalid, 0#64, []⟩)) ∧
    (s.wvalid = true →
      ∃ v ts, exec (.gzrenc a) s = .next (s.respond ⟨.ok, v, ts⟩) ∧
        Carries ts ((integerToGzr a.toInt (tableWeights s)).map Bool.toNat) ∧
        v.toNat = (integerToGzr a.toInt (tableWeights s)).length ∧
        (a.toInt ≤ 0 → Carries ts [0]) ∧
        (s.TableInv → 1 ≤ v.toNat ∧ v.toNat ≤ s.wlen.toNat ∧
          (0 < a.toInt → (integerToGzr a.toInt (tableWeights s)).head? = some true)))

/-- GZRDEC (R73, R74): the sum of the weights whose digit is 1, digits beyond the table ignored; no state written;
WeightTableInvalid before any TRIBGEN. -/
def Obligations.GzrdecSumsTheWeights : Prop :=
  ∀ (a b : Word) (str : List Byte) (digits : Bits) (s : State),
    decode ⟨0x02#8, a, b, str⟩ = .ok (.gzrdec (bitsOfBeats str)) ∧
    (s.wvalid = false → exec (.gzrdec digits) s = .next (s.respond ⟨.weightTableInvalid, 0#64, []⟩)) ∧
    (s.wvalid = true →
      ∃ v, exec (.gzrdec digits) s = .next (s.respond ⟨.ok, v, []⟩) ∧
        v.toNat = (((digits.zip (tableWeights s)).filter fun p => p.1).map fun p => p.2).sum)

/-- TXT2BITS (spec/42_gzr_text_codec.md R85, R87): nine digits a character, in text order, each slot the aligned greedy
string over W255; no state read or written. `val` is 9 times the length wherever that fits the port; elsewhere it is a free value (log entry 8). -/
def Obligations.Txt2bitsConcatenatesSlots : Prop :=
  ∀ (a b : Word) (text : List Byte) (s : State),
    decode ⟨0x03#8, a, b, text⟩ = .ok (.txt2bits text) ∧
    ∃ v ts, exec (.txt2bits text) s = .next (s.respond ⟨.ok, v, ts⟩) ∧
      Carries ts ((text.flatMap fun c => greedy c.toNat w255).map Bool.toNat) ∧ ts.length = 9 * text.length ∧
      (9 * text.length < 2 ^ 64 → v.toNat = 9 * text.length)

/-- BITS2TXT (R86, R88): one code point for each complete 9-digit piece of positive value, in order; pieces of value 0
and an incomplete last piece give none; code points are 1 to 325; no state read or written. `val` is their number
wherever that fits the port; elsewhere it is a free value (log entry 8). -/
def Obligations.Bits2txtReadsCompleteSlots : Prop :=
  ∀ (a b : Word) (str : List Byte) (bits : Bits) (s : State),
    decode ⟨0x04#8, a, b, str⟩ = .ok (.bits2txt (bitsOfBeats str)) ∧
    ∃ v ts, exec (.bits2txt bits) s = .next (s.respond ⟨.ok, v, ts⟩) ∧
      Carries ts (((List.range (bits.length / 9)).map fun j => gzrToInteger (slice bits (9 * j) (9 * j + 9)) w255).filter
        fun x => x ≠ 0) ∧
      (∀ x ∈ ts, 1 ≤ x.toNat ∧ x.toNat ≤ 325) ∧ (ts.length < 2 ^ 64 → v.toNat = ts.length)

/-- FRAME (spec/43_bitstream_framer.md R100, R101): a 32-digit length, most significant digit first, then the payload;
OperandError 0 for 2^32 digits or more; no state written. -/
def Obligations.FramePrependsTheLength : Prop :=
  ∀ (a b : Word) (str : List Byte) (p : Bits) (s : State),
    decode ⟨0x05#8, a, b, str⟩ = .ok (.frame (bitsOfBeats str)) ∧
    (2 ^ 32 ≤ p.length → exec (.frame p) s = .next (s.respond ⟨.operandError, 0#64, []⟩)) ∧
    (p.length < 2 ^ 32 →
      ∃ (v : Val) (ts : List Word) (header : Bits),
        exec (.frame p) s = .next (s.respond ⟨.ok, v, ts⟩) ∧
        v.toNat = 32 + p.length ∧
        Carries ts ((header ++ p).map Bool.toNat) ∧ header.length = 32 ∧
        ∀ k < 32, header[k]? = some (p.length.testBit (31 - k)))

/-- UNFRAMEH (R102, R103): the first 32 digits as a number, most significant first; MalformedHeader with the number of
digits for fewer; no state written. -/
def Obligations.UnframehReadsTheHeader : Prop :=
  ∀ (a b : Word) (str : List Byte) (f : Bits) (s : State),
    decode ⟨0x06#8, a, b, str⟩ = .ok (.unframeh (bitsOfBeats str)) ∧
    (f.length < 32 →
      ∃ v, exec (.unframeh f) s = .next (s.respond ⟨.malformedHeader, v, []⟩) ∧ v.toNat = f.length * 2 ^ 32) ∧
    (32 ≤ f.length →
      ∃ v, exec (.unframeh f) s = .next (s.respond ⟨.ok, v, []⟩) ∧
        v.toNat = ((List.range 32).map fun k => (f.getD k false).toNat * 2 ^ (31 - k)).sum)

/-- UNFRAMEP (R104, R105): the digits at index 32 up to `32 + a`, clipped to those that exist; no state written. -/
def Obligations.UnframepSlicesThePayload : Prop :=
  ∀ (a b : Word) (str : List Byte) (f : Bits) (s : State),
    decode ⟨0x07#8, a, b, str⟩ = .ok (.unframep a (bitsOfBeats str)) ∧
    ∃ (v : Val) (ts : List Word) (p : Bits),
      exec (.unframep a f) s = .next (s.respond ⟨.ok, v, ts⟩) ∧
      Carries ts (p.map Bool.toNat) ∧
      v.toNat = p.length ∧ p.length = min a.toNat (f.length - 32) ∧ ∀ j < p.length, p[j]? = f[32 + j]?

/-- LSBEMB (spec/44_lsb_channel.md R118, R119): the first `min(len, H*W)` pixels take the bits in their least
significant bit, every other pixel stays; `val` is that number; no capacity check. -/
def Obligations.LsbembWritesTheLowBits : Prop :=
  ∀ (a b : Word) (str : List Byte) (f : Bits) (s : State),
    decode ⟨0x08#8, a, b, str⟩ = .ok (.lsbemb (bitsOfBeats str)) ∧
    (s.gvalid = false → exec (.lsbemb f) s = .next (s.respond ⟨.gridInvalid, 0#64, []⟩)) ∧
    (s.GridLoaded →
      ∃ t v, exec (.lsbemb f) s = .next t ∧ Answered s t ⟨.ok, v, []⟩ ∧
        v.toNat = min f.length (pixelCount s) ∧ SameTable s t ∧ SameGridRegs s t ∧
        ∀ k, t.pix.read k =
          if k < min f.length (pixelCount s) then
            (s.pix.read k).map fun old => (old &&& 0xFE#8) ||| (if f.getD k false then 1#8 else 0#8)
          else s.pix.read k)

/-- LSBEXT (R120, R121): the least significant bits of the pixels from `a` up to `a + b`, clipped to the grid, the sum
exact; no state written. -/
def Obligations.LsbextReadsTheLowBits : Prop :=
  ∀ (a b : Word) (str : List Byte) (s : State),
    decode ⟨0x09#8, a, b, str⟩ = .ok (.lsbext a b) ∧
    (s.gvalid = false → exec (.lsbext a b) s = .next (s.respond ⟨.gridInvalid, 0#64, []⟩)) ∧
    (s.GridLoaded →
      ∃ (v : Val) (ts : List Word) (out : Bits),
        exec (.lsbext a b) s = .next (s.respond ⟨.ok, v, ts⟩) ∧
        Carries ts (out.map Bool.toNat) ∧
        v.toNat = out.length ∧ out.length = min b.toNat (pixelCount s - a.toNat) ∧
        ∀ j < out.length, (s.pix.read (a.toNat + j)).map (fun p => p.getLsbD 0) = out[j]?)

/-- CAPQ (R115, R116): the byte capacity in the low half of `val`, the bit capacity in the high half; no state
written. -/
def Obligations.CapqAnswersBothCapacities : Prop :=
  ∀ (a b : Word) (str : List Byte) (s : State),
    decode ⟨0x0A#8, a, b, str⟩ = .ok .capq ∧
    (s.gvalid = false → exec .capq s = .next (s.respond ⟨.gridInvalid, 0#64, []⟩)) ∧
    (s.gvalid = true →
      ∃ v, exec .capq s = .next (s.respond ⟨.ok, v, []⟩) ∧
        v.toNat = (s.h.toNat * s.w.toNat) * 2 ^ 32 + s.h.toNat * s.w.toNat / 8)

/-- CAPCHK (R115, R117): `floor(a/8) + 1` when it does not exceed `floor(H*W/8)`, otherwise CapacityExceeded with both
numbers; no state written. -/
def Obligations.CapchkComparesBytes : Prop :=
  ∀ (a b : Word) (str : List Byte) (s : State),
    decode ⟨0x0B#8, a, b, str⟩ = .ok (.capchk a) ∧
    (s.gvalid = false → exec (.capchk a) s = .next (s.respond ⟨.gridInvalid, 0#64, []⟩)) ∧
    (s.gvalid = true → s.h.toNat * s.w.toNat / 8 < a.toNat / 8 + 1 →
      ∃ v, exec (.capchk a) s = .next (s.respond ⟨.capacityExceeded, v, []⟩) ∧
        v.toNat = (s.h.toNat * s.w.toNat / 8) * 2 ^ 32 + (a.toNat / 8 + 1)) ∧
    (s.gvalid = true → a.toNat / 8 + 1 ≤ s.h.toNat * s.w.toNat / 8 →
      ∃ v, exec (.capchk a) s = .next (s.respond ⟨.ok, v, []⟩) ∧ v.toNat = a.toNat / 8 + 1)

/-- GRIDLD (spec/45_grid_and_composite.md R135): `H`, `W`, all of `PIX` and `GVALID` are set, nothing of the previous
grid is left; OperandError 1 for a dimension over 16 bits, then OperandError 2 for a stream of another length, the
previous grid unchanged. -/
def Obligations.GridldReplacesTheGrid : Prop :=
  ∀ (a b : Word) (px : List Byte) (s : State),
    decode ⟨0x0C#8, a, b, px⟩ = .ok (.gridld a b px) ∧
    (2 ^ 16 ≤ a.toNat ∨ 2 ^ 16 ≤ b.toNat →
      exec (.gridld a b px) s = .next (s.respond ⟨.operandError, 1#64, []⟩)) ∧
    (a.toNat < 2 ^ 16 → b.toNat < 2 ^ 16 → px.length ≠ a.toNat * b.toNat →
      exec (.gridld a b px) s = .next (s.respond ⟨.operandError, 2#64, []⟩)) ∧
    (a.toNat < 2 ^ 16 → b.toNat < 2 ^ 16 → px.length = a.toNat * b.toNat →
      ∃ t v, exec (.gridld a b px) s = .next t ∧ Answered s t ⟨.ok, v, []⟩ ∧ v.toNat = a.toNat * b.toNat ∧
        t.h.toNat = a.toNat ∧ t.w.toNat = b.toNat ∧ t.gvalid = true ∧ SameTable s t ∧
        ∀ k, t.pix.read k = px[k]?)

/-- GRIDRD (R136): the pixels in scan order, the dimensions in `val`; no state written. -/
def Obligations.GridrdHandsTheGridBack : Prop :=
  ∀ (a b : Word) (str : List Byte) (s : State),
    decode ⟨0x0D#8, a, b, str⟩ = .ok .gridrd ∧
    (s.gvalid = false → exec .gridrd s = .next (s.respond ⟨.gridInvalid, 0#64, []⟩)) ∧
    (s.GridLoaded →
      ∃ (v : Val) (ts : List Word) (px : List Byte),
        exec .gridrd s = .next (s.respond ⟨.ok, v, ts⟩) ∧
        v.toNat = s.h.toNat * 2 ^ 16 + s.w.toNat ∧
        Carries ts (px.map BitVec.toNat) ∧ px.length = s.h.toNat * s.w.toNat ∧
        ∀ k < px.length, s.pix.read k = px[k]?)

/-- STEGENC (R137): GridInvalid, then CapacityExceeded with nothing written, then the frame of the text's slots embedded
from scan index 0 and clipped to the grid; `val` is the whole frame's length. The required bytes stand in the exception's
low half wherever they fit it; elsewhere that half is a free value (log entry 9). -/
def Obligations.StegencEmbedsTheFramedText : Prop :=
  ∀ (a b : Word) (text : List Byte) (s : State),
    decode ⟨0x0E#8, a, b, text⟩ = .ok (.stegenc text) ∧
    (s.gvalid = false → exec (.stegenc text) s = .next (s.respond ⟨.gridInvalid, 0#64, []⟩)) ∧
    (s.gvalid = true → pixelCount s / 8 < 9 * text.length / 8 + 1 →
      ∃ v, exec (.stegenc text) s = .next (s.respond ⟨.capacityExceeded, v, []⟩) ∧
        v.toNat / 2 ^ 32 = pixelCount s / 8 ∧
        (9 * text.length / 8 + 1 < 2 ^ 32 → v.toNat % 2 ^ 32 = 9 * text.length / 8 + 1)) ∧
    (s.GridLoaded → 9 * text.length / 8 + 1 ≤ pixelCount s / 8 →
      ∃ t v, exec (.stegenc text) s = .next t ∧ Answered s t ⟨.ok, v, []⟩ ∧ v.toNat = 32 + 9 * text.length ∧
        SameTable s t ∧ SameGridRegs s t ∧
        ∀ k, t.pix.read k =
          if k < min (32 + 9 * text.length) (pixelCount s) then
            (s.pix.read k).map fun old =>
              (old &&& 0xFE#8) ||| (if (frame (textToGzrBits text)).getD k false then 1#8 else 0#8)
          else s.pix.read k)

/-- STEGDEC (R138): GridInvalid; MalformedHeader for fewer than 32 pixels, then for a declared length beyond the grid;
otherwise the text of the declared payload. `L` is the number the first 32 least significant bits spell, and `p` the
bits that follow. No state is written. -/
def Obligations.StegdecDecodesTheDeclaredPayload : Prop :=
  ∀ (a b : Word) (str : List Byte) (s : State),
    decode ⟨0x0F#8, a, b, str⟩ = .ok .stegdec ∧
    (s.gvalid = false → exec .stegdec s = .next (s.respond ⟨.gridInvalid, 0#64, []⟩)) ∧
    (s.gvalid = true → pixelCount s < 32 →
      ∃ v, exec .stegdec s = .next (s.respond ⟨.malformedHeader, v, []⟩) ∧ v.toNat = pixelCount s * 2 ^ 32) ∧
    (s.GridLoaded → 32 ≤ pixelCount s → ∀ lsb : Bits, lsb.length = pixelCount s →
      (∀ k < pixelCount s, (s.pix.read k).map (fun p => p.getLsbD 0) = lsb[k]?) →
      (pixelCount s - 32 < unbin (slice lsb 0 32) →
        ∃ v, exec .stegdec s = .next (s.respond ⟨.malformedHeader, v, []⟩) ∧
          v.toNat = pixelCount s * 2 ^ 32 + unbin (slice lsb 0 32)) ∧
      (unbin (slice lsb 0 32) ≤ pixelCount s - 32 →
        ∃ v ts, exec .stegdec s = .next (s.respond ⟨.ok, v, ts⟩) ∧ v.toNat = ts.length ∧
          Carries ts ((gzrBitsToText (slice lsb 32 (32 + unbin (slice lsb 0 32)))).map BitVec.toNat)))

/-! ### Frames and whole-machine rules -/

/-- Every instruction that completes produces exactly one response and takes nothing else from the host (R40). -/
def Obligations.EveryCommandIsAnsweredOnce : Prop :=
  ∀ (i : Instr) (s t : State), exec i s = .next t → ∃ r, Answered s t r

/-- "no architectural state is changed by the command" that raises, and its result stream is empty
(spec/60_exceptions.md R150). -/
def Obligations.ExceptionsChangeNoState : Prop :=
  ∀ (i : Instr) (s t : State) (r : Response),
    exec i s = .next t → Answered s t r → r.status ≠ .ok → SameBlock s t ∧ r.t = []

/-- An instruction raises only the causes R151 lists for it; UnsupportedCodePoint is raised by none, IllegalCommand by
no instruction; the eight status codes are those of R151, so 8 to 15 are never produced. -/
def Obligations.OnlyListedExceptionsAreRaised : Prop :=
  (∀ (i : Instr) (s t : State) (r : Response),
    exec i s = .next t → Answered s t r → r.status = .ok ∨ r.status ∈ mayRaise i) ∧
  (∀ i : Instr, .unsupportedCodePoint ∉ mayRaise i ∧ .illegalCommand ∉ mayRaise i) ∧
  (statusCode .ok).toNat = 0 ∧ (statusCode .capacityExceeded).toNat = 1 ∧ (statusCode .malformedHeader).toNat = 2 ∧
  (statusCode .unsupportedCodePoint).toNat = 3 ∧ (statusCode .illegalCommand).toNat = 4 ∧
  (statusCode .weightTableInvalid).toNat = 5 ∧ (statusCode .gridInvalid).toNat = 6 ∧
  (statusCode .operandError).toNat = 7 ∧
  (∀ x y : Status, statusCode x = statusCode y → x = y) ∧ ∀ x : Status, (statusCode x).toNat < 8

/-- "`GridInvalid`: raised by every operation that reads `H`, `W` or `PIX` when `GVALID = 0`" (R157). -/
def Obligations.GridReadersNeedAGrid : Prop :=
  ∀ (i : Instr) (s : State), readsGrid i = true → s.gvalid = false →
    exec i s = .next (s.respond ⟨.gridInvalid, 0#64, []⟩)

/-- The frame of the twelve instructions that write nothing: GZRENC, GZRDEC, TXT2BITS, BITS2TXT, FRAME, UNFRAMEH,
UNFRAMEP, CAPQ, CAPCHK, LSBEXT, GRIDRD, STEGDEC. Every register, flag and pixel is unchanged (spec/10_state.md R23). -/
def Obligations.ReadersAndCodecsFrame : Prop :=
  ∀ (i : Instr) (s t : State), writesNothing i = true → exec i s = .next t →
    SameTable s t ∧ SameGridRegs s t ∧ ∀ k, t.pix.read k = s.pix.read k

/-- The frame of TRIBGEN: the grid registers, `GVALID` and every pixel are unchanged (R23). -/
def Obligations.TribgenFrame : Prop :=
  ∀ (a : Word) (s t : State), exec (.tribgen a) s = .next t →
    SameGridRegs s t ∧ ∀ k, t.pix.read k = s.pix.read k

/-- The frame of GRIDLD: the weight table and `WVALID` are unchanged (R23). `PIX` is a destination as a whole: where the
command is refused it is unchanged. -/
def Obligations.GridldFrame : Prop :=
  ∀ (a b : Word) (px : List Byte) (s t : State), exec (.gridld a b px) s = .next t →
    SameTable s t ∧
    (2 ^ 16 ≤ a.toNat ∨ 2 ^ 16 ≤ b.toNat ∨ px.length ≠ a.toNat * b.toNat →
      SameGridRegs s t ∧ ∀ k, t.pix.read k = s.pix.read k)

/-- The frame of LSBEMB and STEGENC: the table, the grid registers and both flags are unchanged, and so is every pixel
from scan index `min(len(bits), H*W)` on, which for STEGENC is `min(32 + 9*len(text), H*W)` (R23). -/
def Obligations.EmbeddingFrame : Prop :=
  (∀ (f : Bits) (s t : State), exec (.lsbemb f) s = .next t →
    SameTable s t ∧ SameGridRegs s t ∧
    ∀ k, min f.length (pixelCount s) ≤ k → t.pix.read k = s.pix.read k) ∧
  (∀ (text : List Byte) (s t : State), exec (.stegenc text) s = .next t →
    SameTable s t ∧ SameGridRegs s t ∧
    ∀ k, min (32 + 9 * text.length) (pixelCount s) ≤ k → t.pix.read k = s.pix.read k)

/-- Embedding changes only the least significant bit of a pixel, so a pixel by at most 1 (spec/44_lsb_channel.md R123):
for every pixel there is, whether LSBEMB or STEGENC ran. -/
def Obligations.EmbeddingChangesOnlyTheLowBit : Prop :=
  ∀ (i : Instr) (s t : State) (k : Nat) (old : Byte),
    (∃ f, i = .lsbemb f) ∨ (∃ text, i = .stegenc text) → exec i s = .next t → s.pix.read k = some old →
    ∃ new, t.pix.read k = some new ∧ new &&& 0xFE#8 = old &&& 0xFE#8 ∧
      new.toNat ≤ old.toNat + 1 ∧ old.toNat ≤ new.toNat + 1

/-- `WVALID` becomes 1 only by TRIBGEN and `GVALID` only by GRIDLD; no instruction clears either (R14, R16, R18). -/
def Obligations.ValidFlagsAreOnlySet : Prop :=
  ∀ (i : Instr) (s t : State), exec i s = .next t →
    (s.wvalid = true → t.wvalid = true) ∧ (s.gvalid = true → t.gvalid = true) ∧
    (t.wvalid ≠ s.wvalid → ∃ a, i = .tribgen a) ∧ (t.gvalid ≠ s.gvalid → ∃ a b px, i = .gridld a b px)

/-- What the spec leaves unspecified cannot be observed: two states that differ only in contents no valid flag vouches
for, or in weight registers at or above `WLEN`, step to two such states, with the same responses (R12, R14, R16,
spec/70_reset_and_hazards.md R170). -/
def Obligations.UnspecifiedContentsAreUnobservable : Prop :=
  ∀ s t s' : State, Indistinguishable s t → step s = .next s' → ∃ t', step t = .next t' ∧ Indistinguishable s' t'

/-- Only GZRENC and GZRDEC depend on the weight table: every other instruction answers the same and leaves the same
grid whatever `WT`, `WLEN` and `WVALID` hold, the text operations among them (R14, spec/92_eei_decisions.md D12). -/
def Obligations.TextPathIgnoresTheTable : Prop :=
  ∀ (i : Instr) (s t : State) (wt : Vector Word Config.weightRegisters) (wlen : BitVec 6) (wvalid : Bool),
    .weightTableInvalid ∉ mayRaise i → exec i s = .next t →
    ∃ t', exec i { s with wt := wt, wlen := wlen, wvalid := wvalid } = .next t' ∧
      t'.responses = t.responses ∧ SameGridRegs t t' ∧ t'.pix = t.pix

/-! ### Invariants -/

/-- The invariant holds right after reset. -/
def Obligations.ResetMeetsTheInvariant : Prop := State.reset.Inv

/-- Every step from every state that meets the invariant gives a state that meets it: `PIX` stays in canonical form and
covers exactly the scan indices below `H*W`, and a valid table holds 3 to 36 terms of the recurrence (R12, R13, R15,
R19). -/
def Obligations.StepKeepsTheInvariant : Prop :=
  ∀ s t : State, s.Inv → step s = .next t → t.Inv

/-- From every state that meets the invariant the step gives a next state: no fault and no refusal can happen, and every
command ends (spec/70_reset_and_hazards.md R184). The statement covers a state with no input as well: that a step is
then idle is the model's choice (log entry 12). -/
def Obligations.StepAlwaysGivesANextState : Prop :=
  ∀ s : State, s.Inv → ∃ t, step s = .next t

/-! ### Laws of the data formats -/

/-- `generate(threshold)` is the seed and then every term of the recurrence up to and including the threshold
(spec/40_tribonacci_weight_generator.md R60, R63). -/
def Obligations.GenerateTakesTermsUpToTheThreshold : Prop :=
  ∀ threshold : Int, ∃ n, 3 ≤ n ∧ generate threshold = tribPrefix n ∧
    threshold < (trib n : Int) ∧ (∀ i < n, 3 ≤ i → (trib i : Int) ≤ threshold)

/-- The sequence is never empty, starts 1, 2, 4, is strictly increasing, and a smaller threshold gives a prefix (R62). -/
def Obligations.GeneratedSequencesGrow : Prop :=
  (∀ t : Int, (generate t).take 3 = [1, 2, 4] ∧ (generate t).Pairwise (fun x y => x < y) ∧
    generate t = tribPrefix (generate t).length) ∧
  ∀ t u : Int, t ≤ u → generate t <+: generate u

/-- For every 32-bit signed threshold the table has at most 36 entries, each at most 2082876103, so it fits the register
file (R61). -/
def Obligations.GeneratedTablesFitTheRegisters : Prop :=
  ∀ a : Word, (generate a.toInt).length ≤ 36 ∧ ∀ x ∈ generate a.toInt, x ≤ 2082876103

/-- The strip caveat (spec/41_gzr_integer_codec.md R72): the encoder's digit `j` is the aligned greedy digit `j + z`,
`z` the number of leading zeros stripped. -/
def Obligations.StrippedDigitsShift : Prop :=
  ∀ (n : Int) (seq : List Nat), 0 < n →
    (integerToGzr n seq).length + ((greedy n.toNat seq).takeWhile fun d => !d).length = seq.length ∧
    ∀ j, (integerToGzr n seq)[j]? = (greedy n.toNat seq)[j + ((greedy n.toNat seq).takeWhile fun d => !d).length]?

/-- The literal encoder round-trips exactly when the greedy decomposition uses weight 1, and otherwise decodes to a
strictly smaller value; for W255, 117 of the values 1 to 255 round-trip and 138, 2 among them, do not (R75). -/
def Obligations.LiteralRoundTripNeedsWeightOne : Prop :=
  (∀ (t : Int) (n : Nat), 7 ≤ t → 1 ≤ n → (n : Int) ≤ t →
    (gzrToInteger (integerToGzr n (generate t)) (generate t) = n ↔ (greedy n (generate t)).head? = some true) ∧
    ((greedy n (generate t)).head? ≠ some true →
      gzrToInteger (integerToGzr n (generate t)) (generate t) < n)) ∧
  ((List.range 256).filter fun n => 1 ≤ n ∧ gzrToInteger (integerToGzr n w255) w255 = n).length = 117 ∧
  ((List.range 256).filter fun n => 1 ≤ n ∧ gzrToInteger (integerToGzr n w255) w255 ≠ n).length = 138 ∧
  integerToGzr 2 w255 = [true, false, false, false, false, false, false, false] ∧
  gzrToInteger (integerToGzr 2 w255) w255 = 1

/-- Below the next term the greedy walk is exact and has no three consecutive 1 digits, padded or stripped; from there
on neither is guaranteed: 274 encodes as three 1 digits, and from 326 on a remainder is lost (R76). -/
def Obligations.GreedyWalkIsExactBelowTheNextTerm : Prop :=
  (∀ (t : Int) (n : Nat), 1 ≤ n → n < trib (generate t).length →
    gzrToInteger (greedy n (generate t)) (generate t) = n ∧ verifyNo111 (greedy n (generate t)) = true ∧
    verifyNo111 (integerToGzr n (generate t)) = true) ∧
  greedy 274 w255 = [false, false, false, false, false, false, true, true, true] ∧
  integerToGzr 274 w255 = [true, true, true] ∧
  ∀ n, 326 ≤ n → gzrToInteger (greedy n w255) w255 < n

/-- Padded with zeros to the table length the digit string is the aligned greedy string and decodes to `n`; for
`n <= 0` it is all zeros and decodes to 0 (R77). -/
def Obligations.PaddedDigitsRoundTrip : Prop :=
  (∀ (t : Int) (n : Nat), 1 ≤ n → n < trib (generate t).length →
    lpad0 (integerToGzr n (generate t)) (generate t).length = greedy n (generate t) ∧
    gzrToInteger (lpad0 (integerToGzr n (generate t)) (generate t).length) (generate t) = n) ∧
  ∀ (t n : Int), n ≤ 0 →
    lpad0 (integerToGzr n (generate t)) (generate t).length = List.replicate (generate t).length false ∧
    gzrToInteger (lpad0 (integerToGzr n (generate t)) (generate t).length) (generate t) = 0

/-- Decoding the slots of a text gives the text with every code point 0 removed (spec/42_gzr_text_codec.md R90). -/
def Obligations.TextRoundTripDropsZeros : Prop :=
  ∀ text : List Byte,
    (gzrBitsToText (textToGzrBits text)).map BitVec.toNat = (text.map BitVec.toNat).filter fun c => c ≠ 0

/-- No slot of a text holds three consecutive 1 digits, and that is not so across slots, as in the payload of
`[230, 1]`, nor in a header (R91). -/
def Obligations.No111HoldsPerSlotOnly : Prop :=
  (∀ text : List Byte, ∀ chunk ∈ chunks9 (textToGzrBits text), chunk.length = 9 ∧ verifyNo111 chunk = true) ∧
  charSlot 230 = [false, false, false, false, false, false, false, true, true] ∧
  charSlot 1 = [true, false, false, false, false, false, false, false, false] ∧
  verifyNo111 (textToGzrBits [230, 1]) = false ∧
  ∃ p : Bits, p.length < 2 ^ 32 ∧ verifyNo111 (slice (frame p) 0 32) = false

/-- Header and payload of a frame are read back, whatever follows the frame (spec/43_bitstream_framer.md R106). -/
def Obligations.FramesAreReadBack : Prop :=
  ∀ p x : Bits, p.length < 2 ^ 32 →
    unframeHeader (frame p) = p.length ∧ unframePayload (frame p) p.length = p ∧
    unframePayload (frame p ++ x) p.length = p

/-! ### Laws over several commands -/

/-- Scan-order symmetry (spec/44_lsb_channel.md R122): after LSBEMB, extraction from 0 returns the bits that were
embedded, those of index below `H*W`, and pixels from the frame's end on are as before; LSBEXT answers so for every
length its operand can hold. -/
def Obligations.ExtractReturnsWhatWasEmbedded : Prop :=
  ∀ (f : Bits) (s : State), s.GridLoaded →
    ∃ t, exec (.lsbemb f) s = .next t ∧ extractGrid 0 f.length t = some (f.take (pixelCount s)) ∧
      (∀ k, f.length ≤ k → t.pix.read k = s.pix.read k) ∧
      (f.length < 2 ^ 32 →
        ∃ v ts, exec (.lsbext 0#32 (BitVec.ofNat 32 f.length)) t = .next (t.respond ⟨.ok, v, ts⟩) ∧
          Carries ts ((f.take (pixelCount s)).map Bool.toNat))

/-- Embedding the same bits twice leaves the pixels embedding them once leaves (R119). -/
def Obligations.EmbeddingTwiceIsEmbeddingOnce : Prop :=
  ∀ (f : Bits) (s t u : State), exec (.lsbemb f) s = .next t → exec (.lsbemb f) t = .next u →
    ∀ k, u.pix.read k = t.pix.read k

/-- After a frame that fits is embedded, the first 32 extracted bits are its length, most significant first, and the
bits after them its payload (R124). -/
def Obligations.EmbeddedFrameLayout : Prop :=
  ∀ (p : Bits) (s : State), s.GridLoaded → 32 + p.length ≤ pixelCount s →
    ∃ t v ts v' ts', exec (.lsbemb (frame p)) s = .next t ∧
      exec (.lsbext 0#32 32#32) t = .next (t.respond ⟨.ok, v, ts⟩) ∧
      Carries ts ((bin32 p.length).map Bool.toNat) ∧
      exec (.lsbext 32#32 (BitVec.ofNat 32 p.length)) t = .next (t.respond ⟨.ok, v', ts'⟩) ∧
      Carries ts' (p.map Bool.toNat)

/-- End to end (spec/45_grid_and_composite.md R139): where the frame fits the grid, STEGENC succeeds and STEGDEC then
returns the text with its zeros removed, so the text itself when it has none. -/
def Obligations.EncodedTextIsDecoded : Prop :=
  ∀ (text : List Byte) (s : State), s.GridLoaded → 32 + 9 * text.length ≤ pixelCount s →
    ∃ t v v' ts, exec (.stegenc text) s = .next t ∧ Answered s t ⟨.ok, v, []⟩ ∧
      exec .stegdec t = .next (t.respond ⟨.ok, v', ts⟩) ∧
      Carries ts ((text.map BitVec.toNat).filter fun c => c ≠ 0)

/-- A text that passes the capacity check but whose frame does not fit is truncated silently, `val` above `H*W` being
the only sign, and a later STEGDEC raises MalformedHeader (spec/70_reset_and_hazards.md R176). -/
def Obligations.TruncatedTextIsRejectedByDecode : Prop :=
  ∀ (text : List Byte) (s : State), s.GridLoaded → 9 * text.length / 8 + 1 ≤ pixelCount s / 8 →
    pixelCount s < 32 + 9 * text.length →
    ∃ t v v', exec (.stegenc text) s = .next t ∧ Answered s t ⟨.ok, v, []⟩ ∧ pixelCount s < v.toNat ∧
      exec .stegdec t = .next (t.respond ⟨.malformedHeader, v', []⟩)

/-- GRIDLD and then GRIDRD returns the pixels and dimensions unchanged when no command in between embeds or loads
(R140). -/
def Obligations.GridRoundTrip : Prop :=
  ∀ (a b : Word) (px : List Byte) (between : List Instr) (s t u : State),
    a.toNat < 2 ^ 16 → b.toNat < 2 ^ 16 → px.length = a.toNat * b.toNat →
    exec (.gridld a b px) s = .next t → (∀ i ∈ between, writesGrid i = false) → execAll between t = .next u →
    ∃ v ts, exec .gridrd u = .next (u.respond ⟨.ok, v, ts⟩) ∧ v.toNat = a.toNat * 2 ^ 16 + b.toNat ∧
      Carries ts (px.map BitVec.toNat)

/-- The host's ENCODE.SEQ has the effect of STEGENC on `PIX` and raises the same exception (R137, spec/30_encoding.md
R55), for every text whose payload length CAPCHK can be given; the model's host has no sequence for a longer one (log
entry 17). -/
def Obligations.EncodeSequenceMatchesStegenc : Prop :=
  ∀ (text : List Byte) (s t : State) (r : Response), s.Inv → 9 * text.length < 2 ^ 32 →
    issue (.stegenc text) s = some (r, t) →
    ∃ r' t', hostEncodeSeq text s = some (r', t') ∧ t'.pix = t.pix ∧ r'.status = r.status ∧
      (r.status ≠ .ok → r'.val = r.val)

/-- The host's DECODE.SRC answers what STEGDEC answers, except where STEGDEC raises MalformedHeader for a declared
length beyond the grid: there it answers OK with the text of the bits from scan index 32 on, clipped to the grid, and no
error (R55, R138, spec/70_reset_and_hazards.md R176). Either way the block is as before. -/
def Obligations.DecodeSequenceMatchesStegdec : Prop :=
  ∀ (s t : State) (r : Response), s.Inv → issue .stegdec s = some (r, t) →
    ∃ r' t', hostDecodeSrc s = some (r', t') ∧ SameBlock s t' ∧
      (¬(r.status = .malformedHeader ∧ 32 ≤ pixelCount s) → r' = r) ∧
      (r.status = .malformedHeader ∧ 32 ≤ pixelCount s →
        pixelCount s - 32 < (r.val.setWidth 32).toNat ∧
        r'.status = .ok ∧ r'.val.toNat = r'.t.length ∧
        ∃ bits : Bits, bits.length = pixelCount s - 32 ∧
          (∀ j < bits.length, (s.pix.read (32 + j)).map (fun p => p.getLsbD 0) = bits[j]?) ∧
          Carries r'.t ((gzrBitsToText bits).map BitVec.toNat))

/-- On the machine, GZRENC padded by the host to `WLEN` digits and then GZRDEC returns `n`, for every `n` below the next
term (R77, R177, R55 GZRENC.PAD). -/
def Obligations.PaddedEncodingRoundTripsOnTheMachine : Prop :=
  ∀ (a n : Word) (s t : State) (r : Response), issue (.tribgen a) s = some (r, t) →
    0 < n.toInt → n.toInt < (trib r.val.toNat : Int) →
    ∃ e d u r' u', hostGzrencPad n r.val.toNat t = some (e, some d, u) ∧ e.status = .ok ∧
      issue (.gzrdec d) u = some (r', u') ∧ r'.status = .ok ∧ (r'.val.toNat : Int) = n.toInt
end

