-- ==== Sys2Proof/Laws/State.lean ====
section
/-! SUPPORT. What each update of the state does to each field, one lemma a field. -/

namespace Sys2Proof.Machine

@[simp] theorem State.respond_wt (s : State) (r : Response) : (s.respond r).wt = s.wt := rfl
@[simp] theorem State.respond_wlen (s : State) (r : Response) : (s.respond r).wlen = s.wlen := rfl
@[simp] theorem State.respond_wvalid (s : State) (r : Response) : (s.respond r).wvalid = s.wvalid := rfl
@[simp] theorem State.respond_h (s : State) (r : Response) : (s.respond r).h = s.h := rfl
@[simp] theorem State.respond_w (s : State) (r : Response) : (s.respond r).w = s.w := rfl
@[simp] theorem State.respond_gvalid (s : State) (r : Response) : (s.respond r).gvalid = s.gvalid := rfl
@[simp] theorem State.respond_pix (s : State) (r : Response) : (s.respond r).pix = s.pix := rfl
@[simp] theorem State.respond_inputs (s : State) (r : Response) : (s.respond r).inputs = s.inputs := rfl
@[simp] theorem State.respond_responses (s : State) (r : Response) : (s.respond r).responses = s.responses ++ [r] := rfl
@[simp] theorem State.respond_freeCount (s : State) (r : Response) : (s.respond r).freeCount = s.freeCount := rfl

@[simp] theorem State.accept_wt (s : State) : (s.accept).wt = s.wt := rfl
@[simp] theorem State.accept_wlen (s : State) : (s.accept).wlen = s.wlen := rfl
@[simp] theorem State.accept_wvalid (s : State) : (s.accept).wvalid = s.wvalid := rfl
@[simp] theorem State.accept_h (s : State) : (s.accept).h = s.h := rfl
@[simp] theorem State.accept_w (s : State) : (s.accept).w = s.w := rfl
@[simp] theorem State.accept_gvalid (s : State) : (s.accept).gvalid = s.gvalid := rfl
@[simp] theorem State.accept_pix (s : State) : (s.accept).pix = s.pix := rfl
@[simp] theorem State.accept_inputs (s : State) : (s.accept).inputs = s.inputs.tail := rfl
@[simp] theorem State.accept_responses (s : State) : (s.accept).responses = s.responses := rfl
@[simp] theorem State.accept_freeCount (s : State) : (s.accept).freeCount = s.freeCount := rfl

@[simp] theorem State.applyReset_wt (s : State) : (s.applyReset).wt = State.reset.wt := rfl
@[simp] theorem State.applyReset_wlen (s : State) : (s.applyReset).wlen = 0#6 := rfl
@[simp] theorem State.applyReset_wvalid (s : State) : (s.applyReset).wvalid = false := rfl
@[simp] theorem State.applyReset_h (s : State) : (s.applyReset).h = 0#16 := rfl
@[simp] theorem State.applyReset_w (s : State) : (s.applyReset).w = 0#16 := rfl
@[simp] theorem State.applyReset_gvalid (s : State) : (s.applyReset).gvalid = false := rfl
@[simp] theorem State.applyReset_pix (s : State) : (s.applyReset).pix = [] := rfl
@[simp] theorem State.applyReset_inputs (s : State) : (s.applyReset).inputs = s.inputs := rfl
@[simp] theorem State.applyReset_responses (s : State) : (s.applyReset).responses = s.responses := rfl
@[simp] theorem State.applyReset_freeCount (s : State) : (s.applyReset).freeCount = s.freeCount := rfl

@[simp] theorem State.setTable_wt (s : State) (seq : List Nat) : (s.setTable seq).wt = weightFile seq s.freeCount := rfl
@[simp] theorem State.setTable_wlen (s : State) (seq : List Nat) : (s.setTable seq).wlen = BitVec.ofNat 6 seq.length := rfl
@[simp] theorem State.setTable_wvalid (s : State) (seq : List Nat) : (s.setTable seq).wvalid = true := rfl
@[simp] theorem State.setTable_h (s : State) (seq : List Nat) : (s.setTable seq).h = s.h := rfl
@[simp] theorem State.setTable_w (s : State) (seq : List Nat) : (s.setTable seq).w = s.w := rfl
@[simp] theorem State.setTable_gvalid (s : State) (seq : List Nat) : (s.setTable seq).gvalid = s.gvalid := rfl
@[simp] theorem State.setTable_pix (s : State) (seq : List Nat) : (s.setTable seq).pix = s.pix := rfl
@[simp] theorem State.setTable_inputs (s : State) (seq : List Nat) : (s.setTable seq).inputs = s.inputs := rfl
@[simp] theorem State.setTable_responses (s : State) (seq : List Nat) : (s.setTable seq).responses = s.responses := rfl
@[simp] theorem State.setTable_freeCount (s : State) (seq : List Nat) : (s.setTable seq).freeCount = s.freeCount + 1 := rfl

@[simp] theorem State.setGrid_wt (s : State) (h w : Dim) (pixels : List Byte) : (s.setGrid h w pixels).wt = s.wt := rfl
@[simp] theorem State.setGrid_wlen (s : State) (h w : Dim) (pixels : List Byte) : (s.setGrid h w pixels).wlen = s.wlen := rfl
@[simp] theorem State.setGrid_wvalid (s : State) (h w : Dim) (pixels : List Byte) : (s.setGrid h w pixels).wvalid = s.wvalid := rfl
@[simp] theorem State.setGrid_h (s : State) (h w : Dim) (pixels : List Byte) : (s.setGrid h w pixels).h = h := rfl
@[simp] theorem State.setGrid_w (s : State) (h w : Dim) (pixels : List Byte) : (s.setGrid h w pixels).w = w := rfl
@[simp] theorem State.setGrid_gvalid (s : State) (h w : Dim) (pixels : List Byte) : (s.setGrid h w pixels).gvalid = true := rfl
@[simp] theorem State.setGrid_pix (s : State) (h w : Dim) (pixels : List Byte) : (s.setGrid h w pixels).pix = Memory.load 0 pixels := rfl
@[simp] theorem State.setGrid_inputs (s : State) (h w : Dim) (pixels : List Byte) : (s.setGrid h w pixels).inputs = s.inputs := rfl
@[simp] theorem State.setGrid_responses (s : State) (h w : Dim) (pixels : List Byte) : (s.setGrid h w pixels).responses = s.responses := rfl
@[simp] theorem State.setGrid_freeCount (s : State) (h w : Dim) (pixels : List Byte) : (s.setGrid h w pixels).freeCount = s.freeCount := rfl

@[simp] theorem State.setPix_wt (s : State) (m : Memory) : (s.setPix m).wt = s.wt := rfl
@[simp] theorem State.setPix_wlen (s : State) (m : Memory) : (s.setPix m).wlen = s.wlen := rfl
@[simp] theorem State.setPix_wvalid (s : State) (m : Memory) : (s.setPix m).wvalid = s.wvalid := rfl
@[simp] theorem State.setPix_h (s : State) (m : Memory) : (s.setPix m).h = s.h := rfl
@[simp] theorem State.setPix_w (s : State) (m : Memory) : (s.setPix m).w = s.w := rfl
@[simp] theorem State.setPix_gvalid (s : State) (m : Memory) : (s.setPix m).gvalid = s.gvalid := rfl
@[simp] theorem State.setPix_pix (s : State) (m : Memory) : (s.setPix m).pix = m := rfl
@[simp] theorem State.setPix_inputs (s : State) (m : Memory) : (s.setPix m).inputs = s.inputs := rfl
@[simp] theorem State.setPix_responses (s : State) (m : Memory) : (s.setPix m).responses = s.responses := rfl
@[simp] theorem State.setPix_freeCount (s : State) (m : Memory) : (s.setPix m).freeCount = s.freeCount := rfl

end Sys2Proof.Machine
end

