-- ==== Sys2Proof/Laws/Ops.lean ====
section
/-! SUPPORT. What the shared operations do: the pixel accesses, the `val` port, the answers and the guards. -/

namespace Sys2Proof.Machine

/-! ### Pixel memory -/

theorem Memory.read_write (m : Memory) (k j : Nat) (v : Byte) :
    (m.write k v).read j = if j = k then some v else m.read j := by
  induction m with
  | nil => simp only [Memory.write, Memory.read, eq_comm (a := k)]
  | cons c m ih =>
    obtain ⟨a, u⟩ := c
    simp only [Memory.write]
    split
    · simp only [Memory.read, eq_comm (a := k)]
    · split
      · subst ‹k = a›; simp only [Memory.read, eq_comm (a := k)]; split <;> rfl
      · simp only [Memory.read, ih]; split <;> split <;> first | rfl | omega

@[simp] theorem Memory.read_write_same (m : Memory) (k : Nat) (v : Byte) : (m.write k v).read k = some v := by
  simp [Memory.read_write]

theorem Memory.read_write_other (m : Memory) {k j : Nat} (v : Byte) (h : j ≠ k) :
    (m.write k v).read j = m.read j := by
  simp [Memory.read_write, h]

/-- A written cell is the new pixel or a cell that was there. -/
theorem Memory.mem_write {m : Memory} {k : Nat} {v : Byte} {c : Host.Cell} (h : c ∈ m.write k v) :
    c = (k, v) ∨ c ∈ m := by
  induction m with
  | nil => simpa [Memory.write] using h
  | cons d m ih =>
    obtain ⟨a, u⟩ := d
    simp only [Memory.write] at h
    split at h
    · simpa using h
    · split at h <;> simp only [List.mem_cons] at h ⊢ <;> tauto

/-- MemWrite keeps the canonical form. -/
theorem Memory.wf_write {m : Memory} (h : m.wf) (k : Nat) (v : Byte) : (m.write k v).wf := by
  induction m with
  | nil => simp [Memory.write, Memory.wf]
  | cons c m ih =>
    obtain ⟨a, u⟩ := c
    obtain ⟨ha, hm⟩ := List.pairwise_cons.1 h
    simp only [Memory.write]
    split
    · refine List.pairwise_cons.2 ⟨fun d hd => ?_, h⟩
      rcases List.mem_cons.1 hd with rfl | hd
      · assumption
      · exact Nat.lt_trans ‹k < a› (ha d hd)
    · split
      · subst ‹k = a›; exact List.pairwise_cons.2 ⟨ha, hm⟩
      · refine List.pairwise_cons.2 ⟨fun d hd => ?_, ih hm⟩
        rcases Memory.mem_write hd with rfl | hd
        · simp only; omega
        · exact ha d hd

theorem Memory.read_load (pixels : List Byte) (k j : Nat) :
    (Memory.load k pixels).read j = if j < k then none else pixels[j - k]? := by
  induction pixels generalizing k with
  | nil => simp [Memory.load, Memory.read]
  | cons v pixels ih =>
    simp only [Memory.load, Memory.read, ih]
    rcases Nat.lt_trichotomy j k with h | h | h
    · rw [if_neg (by omega), if_pos (by omega), if_pos h]
    · subst h; simp
    · rw [if_neg (by omega), if_neg (by omega), if_neg (by omega), show j - k = (j - (k + 1)) + 1 by omega]
      simp

@[simp] theorem Memory.read_load_zero (pixels : List Byte) (j : Nat) : (Memory.load 0 pixels).read j = pixels[j]? := by
  simp [Memory.read_load]

/-- A load gives a memory in canonical form. -/
theorem Memory.wf_load (pixels : List Byte) (k : Nat) : (Memory.load k pixels).wf := by
  suffices ∀ k, (Memory.load k pixels).wf ∧ ∀ c ∈ Memory.load k pixels, k ≤ c.1 from (this k).1
  induction pixels with
  | nil => simp [Memory.load, Memory.wf]
  | cons v pixels ih =>
    intro k
    obtain ⟨hw, hl⟩ := ih (k + 1)
    refine ⟨List.pairwise_cons.2 ⟨fun d hd => ?_, hw⟩, fun d hd => ?_⟩
    · have := hl d hd; simp only; omega
    · rcases List.mem_cons.1 hd with rfl | hd
      · simp
      · have := hl d hd; omega

/-- A span that is read has its length and holds the pixels read one by one. -/
theorem Memory.readSpan_eq_some {m : Memory} {k n : Nat} {l : List Byte} :
    m.readSpan k n = some l ↔ l.length = n ∧ ∀ j < n, m.read (k + j) = l[j]? := by
  induction n generalizing k l with
  | zero =>
    simp only [Memory.readSpan, Option.some.injEq, Nat.not_lt_zero, false_imp_iff, implies_true, and_true]
    rw [List.length_eq_zero_iff, eq_comm]
  | succ n ih =>
    simp only [Memory.readSpan]
    constructor
    · intro h
      split at h
      · cases h
      · rename_i v hv
        obtain ⟨rest, hr, rfl⟩ := Option.map_eq_some_iff.1 h
        obtain ⟨hlen, hread⟩ := ih.1 hr
        refine ⟨by simp [hlen], fun j hj => ?_⟩
        cases j with
        | zero => simpa using hv
        | succ j =>
          have := hread j (by omega)
          rw [show k + (j + 1) = k + 1 + j by omega, this]; simp
    · rintro ⟨hlen, hread⟩
      cases l with
      | nil => simp at hlen
      | cons v rest =>
        have hv : m.read k = some v := by simpa using hread 0 (by omega)
        have hrest : m.readSpan (k + 1) n = some rest := by
          refine ih.2 ⟨by simpa using hlen, fun j hj => ?_⟩
          have := hread (j + 1) (by omega)
          rw [show k + (j + 1) = k + 1 + j by omega] at this
          simpa using this
        simp [hv, hrest]

/-- A span all of whose pixels are there can be read. -/
theorem Memory.readSpan_isSome {m : Memory} {k n : Nat} (h : ∀ j < n, (m.read (k + j)).isSome = true) :
    ∃ l, m.readSpan k n = some l := by
  induction n generalizing k with
  | zero => exact ⟨[], rfl⟩
  | succ n ih =>
    obtain ⟨v, hv⟩ := Option.isSome_iff_exists.1 (h 0 (by omega))
    obtain ⟨rest, hr⟩ := ih (k := k + 1) fun j hj => by
      have := h (j + 1) (by omega)
      rwa [show k + (j + 1) = k + 1 + j by omega] at this
    exact ⟨v :: rest, by simp only [Nat.add_zero] at hv; simp [Memory.readSpan, hv, hr]⟩

theorem pixelCount_lt (s : State) : pixelCount s < 2 ^ 32 := by
  have hh := s.h.isLt
  have hw := s.w.isLt
  calc s.h.toNat * s.w.toNat ≤ 65535 * 65535 := Nat.mul_le_mul (by omega) (by omega)
    _ < 2 ^ 32 := by norm_num

/-! ### The `val` port -/

theorem portVal_toNat {n : Nat} (h : n < 2 ^ 64) : (portVal n).toNat = n := by
  simp only [portVal, if_pos h, BitVec.toNat_ofNat]; omega

theorem portField_toNat {n : Nat} (h : n < 2 ^ 32) : (portField n).toNat = n := by
  simp only [portField, if_pos h, BitVec.toNat_ofNat]; omega

theorem portPair_high (hi lo : Nat) (h : hi < 2 ^ 32) : (portPair hi lo).toNat / 2 ^ 32 = hi := by
  have := (portField lo).isLt
  simp only [portPair, BitVec.toNat_append, portField_toNat h, Nat.shiftLeft_eq]
  rw [Nat.mul_comm hi, ← Nat.two_pow_add_eq_or_of_lt this]
  omega

theorem portPair_toNat {hi lo : Nat} (h : hi < 2 ^ 32) (l : lo < 2 ^ 32) :
    (portPair hi lo).toNat = hi * 2 ^ 32 + lo := by
  simp only [portPair, BitVec.toNat_append, portField_toNat h, portField_toNat l, Nat.shiftLeft_eq]
  rw [Nat.mul_comm hi, ← Nat.two_pow_add_eq_or_of_lt l]

/-! ### Answers and guards -/

/-- What a success is. -/
theorem succeed_eq_next {val : Val} {t : List Word} {s u : State} :
    succeed val t s = .next u ↔ s.respond ⟨.ok, val, t⟩ = u := by
  simp [succeed]

/-- What an exception is: the state with one response more. -/
theorem raise_eq_next {cause : Status} {info : Val} {s u : State} :
    raise cause info s = .next u ↔ s.respond ⟨cause, info, []⟩ = u := by
  simp [raise]

@[simp] theorem requireTable_valid {s : State} (h : s.wvalid = true) (go : Result) : requireTable s go = go := by
  simp [requireTable, h]

@[simp] theorem requireTable_invalid {s : State} (h : s.wvalid = false) (go : Result) :
    requireTable s go = .next (s.respond ⟨.weightTableInvalid, 0#64, []⟩) := by
  simp [requireTable, h, raise]

@[simp] theorem requireGrid_valid {s : State} (h : s.gvalid = true) (go : Result) : requireGrid s go = go := by
  simp [requireGrid, h]

@[simp] theorem requireGrid_invalid {s : State} (h : s.gvalid = false) (go : Result) :
    requireGrid s go = .next (s.respond ⟨.gridInvalid, 0#64, []⟩) := by
  simp [requireGrid, h, raise]

@[simp] theorem withPixels_some {α : Type} (x : α) (go : α → Result) : withPixels (some x) go = go x := rfl

/-- A read of pixels that answers a next state found its pixels. -/
theorem withPixels_eq_next {α : Type} {read : Option α} {go : α → Result} {u : State}
    (h : withPixels read go = .next u) : ∃ x, read = some x ∧ go x = .next u := by
  cases read with
  | none => cases h
  | some x => exact ⟨x, rfl, h⟩

end Sys2Proof.Machine
end

