-- ==== Sys2Proof/Laws/Channel.lean ====
section
/-! SUPPORT. What embedding leaves in `PIX` and what extraction takes from it. -/

namespace Sys2Proof.Machine

/-! ### One pixel -/

@[simp] theorem pixelLsb_embedPixel (old : Byte) (d : Bool) : pixelLsb (embedPixel old d) = d := by
  cases d <;> simp [pixelLsb, embedPixel, Config.lsbClearMask]

/-- Embedding into a pixel keeps its bits 7 to 1. -/
theorem embedPixel_and_mask (old : Byte) (d : Bool) :
    embedPixel old d &&& 0xFE#8 = old &&& 0xFE#8 := by
  apply BitVec.eq_of_getLsbD_eq
  intro i hi
  have : i < 8 := hi
  interval_cases i <;> cases d <;> simp [embedPixel, Config.lsbClearMask]

@[simp] theorem embedPixel_embedPixel (old : Byte) (d e : Bool) : embedPixel (embedPixel old d) e = embedPixel old e := by
  have h := embedPixel_and_mask old d
  simp only [embedPixel, Config.lsbClearMask] at h ⊢
  rw [h]

/-- Two pixels with the same bits 7 to 1 differ by at most 1. -/
theorem toNat_le_of_and_mask {u v : Byte} (h : u &&& 0xFE#8 = v &&& 0xFE#8) : u.toNat ≤ v.toNat + 1 := by
  have key : ∀ x : Byte, (x &&& 0xFE#8).toNat = x.toNat / 2 * 2 := by decide
  have := congrArg BitVec.toNat h
  rw [key, key] at this
  omega

/-! ### The embedding loop -/

/-- What the loop leaves: the covered pixels carry the bits, every other pixel is as before. -/
theorem read_embedFrom {k : Nat} {bits : Bits} {m m' : Memory} (h : embedFrom k bits m = some m') (j : Nat) :
    m'.read j =
      if k ≤ j ∧ j < k + bits.length then (m.read j).map fun old => embedPixel old (bits.getD (j - k) false)
      else m.read j := by
  induction bits generalizing k m with
  | nil =>
    simp only [embedFrom, Option.some.injEq] at h
    rw [if_neg (by simp), h]
  | cons d bits ih =>
    rw [embedFrom] at h
    split at h
    · rename_i old hold
      rw [ih h, Memory.read_write, List.length_cons]
      rcases Nat.lt_trichotomy j k with hj | rfl | hj
      · rw [if_neg (by omega), if_neg (by omega), if_neg (by omega)]
      · rw [if_neg (by omega), if_pos rfl, if_pos (by omega), hold]; simp
      · rw [if_neg (show ¬ j = k by omega), show j - k = j - (k + 1) + 1 by omega, List.getD_cons_succ]
        by_cases hb : j < k + 1 + bits.length
        · rw [if_pos (by omega), if_pos (by omega)]
        · rw [if_neg (by omega), if_neg (by omega)]
    · cases h

/-- The loop finds its pixels when they are there. -/
theorem embedFrom_isSome {k : Nat} {bits : Bits} {m : Memory}
    (h : ∀ j < bits.length, (m.read (k + j)).isSome = true) : ∃ m', embedFrom k bits m = some m' := by
  induction bits generalizing k m with
  | nil => exact ⟨m, rfl⟩
  | cons d bits ih =>
    obtain ⟨old, hold⟩ := Option.isSome_iff_exists.1 (h 0 (by simp))
    rw [Nat.add_zero] at hold
    rw [embedFrom, hold]
    refine ih fun j hj => ?_
    rw [Memory.read_write]
    split
    · rfl
    · have := h (j + 1) (by simpa using hj)
      rwa [show k + (j + 1) = k + 1 + j by omega] at this

/-- The loop keeps the canonical form. -/
theorem wf_embedFrom {k : Nat} {bits : Bits} {m m' : Memory} (hw : m.wf) (h : embedFrom k bits m = some m') :
    m'.wf := by
  induction bits generalizing k m with
  | nil => simp only [embedFrom, Option.some.injEq] at h; exact h ▸ hw
  | cons d bits ih =>
    rw [embedFrom] at h
    split at h
    · exact ih (Memory.wf_write hw _ _) h
    · cases h

/-! ### On the loaded grid -/

/-- What `embed` leaves in `PIX` (R118). -/
theorem read_embedGrid {f : Bits} {s : State} {m : Memory} (h : embedGrid f s = some m) (k : Nat) :
    m.read k =
      if k < min f.length (pixelCount s) then (s.pix.read k).map fun old => embedPixel old (f.getD k false)
      else s.pix.read k := by
  rw [read_embedFrom h, List.length_take, Nat.min_comm f.length]
  by_cases hk : k < min (pixelCount s) f.length
  · rw [if_pos (by omega), if_pos hk]
    simp only [Nat.sub_zero, List.getD_eq_getElem?_getD, List.getElem?_take, if_pos (show k < pixelCount s by omega)]
  · rw [if_neg (by omega), if_neg hk]

theorem embedGrid_isSome {f : Bits} {s : State} (h : ∀ k < pixelCount s, (s.pix.read k).isSome = true) :
    ∃ m, embedGrid f s = some m := by
  refine embedFrom_isSome fun j hj => ?_
  rw [List.length_take] at hj
  rw [Nat.zero_add]
  exact h j (by omega)

theorem wf_embedGrid {f : Bits} {s : State} {m : Memory} (hw : s.pix.wf) (h : embedGrid f s = some m) : m.wf :=
  wf_embedFrom hw h

/-- Embedding neither makes a pixel nor removes one. -/
theorem isSome_read_embedGrid {f : Bits} {s : State} {m : Memory} (h : embedGrid f s = some m) (k : Nat) :
    (m.read k).isSome = (s.pix.read k).isSome := by
  rw [read_embedGrid h]; split <;> simp

/-- What `extractBits` takes from `PIX` (R120). -/
theorem extractGrid_eq_some {start length : Nat} {s : State} {out : Bits} :
    extractGrid start length s = some out ↔
      out.length = min length (pixelCount s - start) ∧
      ∀ j < out.length, (s.pix.read (start + j)).map pixelLsb = out[j]? ∧ (s.pix.read (start + j)).isSome = true := by
  have hn : min (start + length) (pixelCount s) - start = min length (pixelCount s - start) := by omega
  simp only [extractGrid, hn, Option.map_eq_some_iff, Memory.readSpan_eq_some]
  constructor
  · rintro ⟨px, ⟨hl, hr⟩, rfl⟩
    refine ⟨by simpa using hl, fun j hj => ?_⟩
    rw [List.length_map] at hj
    rw [hr j (by omega), List.getElem?_map, List.getElem?_eq_getElem hj]
    exact ⟨rfl, rfl⟩
  · rintro ⟨hl, hr⟩
    obtain ⟨px, hpx⟩ := Memory.readSpan_isSome (m := s.pix) (k := start) (n := out.length) fun j hj => (hr j hj).2
    obtain ⟨hpl, hpr⟩ := Memory.readSpan_eq_some.1 hpx
    refine ⟨px, ⟨by omega, fun j hj => hpr j (by omega)⟩, ?_⟩
    apply List.ext_getElem?
    intro j
    by_cases hj : j < out.length
    · rw [← (hr j hj).1, hpr j hj, List.getElem?_map]
    · rw [List.getElem?_eq_none (by simp; omega), List.getElem?_eq_none (by omega)]

theorem extractGrid_isSome {start length : Nat} {s : State}
    (h : ∀ k < pixelCount s, (s.pix.read k).isSome = true) : ∃ out, extractGrid start length s = some out := by
  obtain ⟨px, hpx⟩ := Memory.readSpan_isSome (m := s.pix) (k := start)
    (n := min (start + length) (pixelCount s) - start) fun j hj => h _ (by omega)
  exact ⟨px.map pixelLsb, by simp [extractGrid, hpx]⟩

end Sys2Proof.Machine
end

