-- ==== Sys2Proof/Laws/Generator.lean ====
section
/-! SUPPORT. The terms of the recurrence, the growth loop of the generator, and what the register file holds after a
TRIBGEN. -/

namespace Sys2Proof

theorem trib_step (i : Nat) : trib (i + 3) = trib (i + 2) + trib (i + 1) + trib i := by rw [trib]

theorem trib_pos (i : Nat) : 0 < trib i := by
  match i with
  | 0 => decide
  | 1 => decide
  | 2 => decide
  | i + 3 => rw [trib_step]; have := trib_pos i; omega

theorem trib_lt_succ (i : Nat) : trib i < trib (i + 1) := by
  match i with
  | 0 => decide
  | 1 => decide
  | i + 2 => rw [trib_step]; have := trib_pos i; have := trib_pos (i + 1); omega

theorem trib_strictMono : StrictMono trib := strictMono_nat_of_lt_succ trib_lt_succ

/-- A term is at most twice the one before. -/
theorem trib_succ_le (i : Nat) : trib (i + 1) ≤ 2 * trib i := by
  match i with
  | 0 => decide
  | 1 => decide
  | 2 => decide
  | i + 3 =>
    have h1 : trib (i + 3) = trib (i + 2) + trib (i + 1) + trib i := trib_step i
    have h2 : trib (i + 4) = trib (i + 3) + trib (i + 2) + trib (i + 1) := trib_step (i + 1)
    show trib (i + 4) ≤ 2 * trib (i + 3)
    omega

@[simp] theorem length_tribPrefix (n : Nat) : (tribPrefix n).length = n := by simp [tribPrefix]

theorem tribPrefix_succ (n : Nat) : tribPrefix (n + 1) = tribPrefix n ++ [trib n] := by
  simp [tribPrefix, List.range_succ]

theorem getElem?_tribPrefix {n i : Nat} (h : i < n) : (tribPrefix n)[i]? = some (trib i) := by
  simp [tribPrefix, h]

theorem tribPrefix_prefix {m n : Nat} (h : m ≤ n) : tribPrefix m <+: tribPrefix n := by
  obtain ⟨k, rfl⟩ := Nat.exists_eq_add_of_le h
  rw [tribPrefix, tribPrefix, List.range_add, List.map_append]
  exact List.prefix_append _ _

theorem tribPrefix_pairwise (n : Nat) : (tribPrefix n).Pairwise fun x y => x < y :=
  List.Pairwise.map _ (fun _ _ h => trib_strictMono h) List.pairwise_lt_range

theorem mem_tribPrefix {n x : Nat} (h : x ∈ tribPrefix n) : ∃ i < n, x = trib i := by
  obtain ⟨i, hi, rfl⟩ := List.mem_map.1 h
  exact ⟨i, List.mem_range.1 hi, rfl⟩

namespace Machine

/-- From the terms `i`, `i+1`, `i+2` the loop appends the terms up to the threshold and stops before the first one above
it, whenever its bound on passes is not what stops it. -/
theorem growTerms_eq (passes : Nat) (threshold : Int) (i : Nat) (h : threshold < trib (i + 2) + passes) :
    ∃ k, growTerms passes threshold (trib i) (trib (i + 1)) (trib (i + 2)) =
        (List.range k).map (fun j => trib (i + 3 + j)) ∧
      threshold < trib (i + 3 + k) ∧ ∀ j < k, (trib (i + 3 + j) : Int) ≤ threshold := by
  induction passes generalizing i with
  | zero =>
    have : trib (i + 2) < trib (i + 3) := trib_lt_succ (i + 2)
    refine ⟨0, by simp [growTerms], ?_, by simp⟩
    rw [Nat.add_zero]; push_cast at h; omega
  | succ passes ih =>
    have hlt : trib (i + 2) < trib (i + 3) := trib_lt_succ (i + 2)
    rw [growTerms, ← trib_step i]
    split
    · split
      · exact ⟨0, by simp, by simpa using ‹_›, by simp⟩
      · obtain ⟨k, hk, hgt, hle⟩ := ih (i + 1) (by
          show threshold < (trib (i + 3) : Int) + passes
          push_cast at h; omega)
        have shift : ∀ j, i + 1 + 3 + j = i + 3 + (j + 1) := fun j => by omega
        simp only [shift] at hk hgt hle
        refine ⟨k + 1, ?_, hgt, fun j hj => ?_⟩
        · rw [List.range_succ_eq_map, List.map_cons, List.map_map]
          exact congrArg (trib (i + 3) :: ·) hk
        · cases j with
          | zero => rw [Nat.add_zero]; omega
          | succ j => exact hle j (by omega)
    · refine ⟨0, by simp, ?_, by simp⟩
      rw [Nat.add_zero]; omega

/-- A table that fits the register file is read back from it. -/
theorem tableWeights_setTable (s : State) {seq : List Nat} (h : seq.length ≤ Config.weightRegisters)
    (hw : ∀ x ∈ seq, x < 2 ^ 32) : tableWeights (s.setTable seq) = seq := by
  have hl : (BitVec.ofNat 6 seq.length).toNat = seq.length := by
    rw [BitVec.toNat_ofNat]; exact Nat.mod_eq_of_lt (by unfold Config.weightRegisters at h; omega)
  apply List.ext_getElem?
  intro i
  simp only [tableWeights, State.setTable_wt, State.setTable_wlen, hl, weightFile, Vector.toList_mk,
    List.getElem?_map, List.getElem?_take]
  by_cases hi : i < seq.length
  · have hx := hw seq[i] (List.getElem_mem hi)
    rw [if_pos hi, List.getElem?_eq_getElem hi]
    simp only [weightEntry, List.getElem?_range (show i < Config.weightRegisters by omega),
      List.getElem?_eq_getElem hi, Option.map_some, BitVec.toNat_ofNat, Option.some.injEq]
    omega
  · rw [if_neg hi, List.getElem?_eq_none (by omega)]; rfl

/-- No more weights are read than there are registers. -/
theorem length_tableWeights_le (s : State) : (tableWeights s).length ≤ 36 ∧ (tableWeights s).length ≤ s.wlen.toNat := by
  simp only [tableWeights, List.length_map, List.length_take, Vector.length_toList, Config.weightRegisters]
  omega

/-- A weight fits its register. -/
theorem tableWeights_lt {s : State} {x : Nat} (h : x ∈ tableWeights s) : x < 2 ^ 32 := by
  obtain ⟨v, -, rfl⟩ := List.mem_map.1 h
  exact v.isLt

end Machine
end Sys2Proof
end

