-- ==== Sys2Proof/Laws/Sequences.lean ====
section
/-! SUPPORT. The sequence primitives: lengths, elements, and how they undo each other. -/

namespace Sys2Proof.Machine

/-! ### Slices and padding -/

theorem length_slice {α : Type} (s : List α) (a b : Nat) : (slice s a b).length = min b s.length - a := by
  simp [slice]

theorem getElem?_slice {α : Type} (s : List α) (a b j : Nat) :
    (slice s a b)[j]? = if a + j < b then s[a + j]? else none := by
  simp only [slice, List.getElem?_drop, List.getElem?_take]

theorem slice_append_left {α : Type} (s t : List α) : slice (s ++ t) 0 s.length = s := by
  simp [slice]

theorem slice_append_right {α : Type} (s t : List α) (n : Nat) :
    slice (s ++ t) s.length (s.length + n) = t.take n := by
  simp [slice, List.take_append]

theorem length_lpad0 (s : Bits) (w : Nat) : (lpad0 s w).length = max w s.length := by
  simp only [lpad0, List.length_append, List.length_replicate]; omega

/-- The zeros in front and what is left. -/
theorem takeWhile_append_lstrip0 (s : Bits) : (s.takeWhile fun d => !d) ++ lstrip0 s = s :=
  List.takeWhile_append_dropWhile

theorem takeWhile_zero_eq_replicate (s : Bits) :
    (s.takeWhile fun d => !d) = List.replicate (s.takeWhile fun d => !d).length false := by
  refine List.eq_replicate_iff.2 ⟨rfl, fun d hd => ?_⟩
  simpa using (List.mem_takeWhile_imp hd)

/-- Padding to the full length restores the zeros that stripping removed. -/
theorem lpad0_lstrip0 (s : Bits) : lpad0 (lstrip0 s) s.length = s := by
  have h := takeWhile_append_lstrip0 s
  have hl : (s.takeWhile fun d => !d).length + (lstrip0 s).length = s.length := by
    rw [← List.length_append, h]
  unfold lpad0
  rw [show s.length - (lstrip0 s).length = (s.takeWhile fun d => !d).length by omega,
    ← takeWhile_zero_eq_replicate, h]

theorem lstrip0_eq_drop (s : Bits) : lstrip0 s = s.drop (s.takeWhile fun d => !d).length := by
  have h := List.drop_left (l₁ := s.takeWhile fun d => !d) (l₂ := lstrip0 s)
  rwa [takeWhile_append_lstrip0, eq_comm] at h

/-- A stripped string begins with 1 or is empty. -/
theorem head?_lstrip0 (s : Bits) : (lstrip0 s).head? = some true ∨ lstrip0 s = [] := by
  induction s with
  | nil => exact .inr rfl
  | cons d s ih => cases d <;> simp_all [lstrip0]

/-! ### Binary numbers -/

@[simp] theorem length_bin32 (v : Nat) : (bin32 v).length = 32 := by simp [bin32]

theorem getElem?_bin32 (v : Nat) {k : Nat} (h : k < 32) : (bin32 v)[k]? = some (v.testBit (31 - k)) := by
  simp [bin32, h]

theorem unbin_foldl (s : Bits) (v : Nat) :
    s.foldl (fun v d => 2 * v + d.toNat) v = v * 2 ^ s.length + unbin s := by
  induction s generalizing v with
  | nil => simp [unbin]
  | cons d s ih =>
    have h : unbin (d :: s) = d.toNat * 2 ^ s.length + unbin s := by
      refine (ih (2 * 0 + d.toNat)).trans ?_
      rw [Nat.mul_zero, Nat.zero_add]
    rw [List.foldl_cons, ih, h, List.length_cons]
    ring

theorem unbin_cons (d : Bool) (s : Bits) : unbin (d :: s) = d.toNat * 2 ^ s.length + unbin s := by
  refine (unbin_foldl s (2 * 0 + d.toNat)).trans ?_
  rw [Nat.mul_zero, Nat.zero_add]

theorem unbin_lt (s : Bits) : unbin s < 2 ^ s.length := by
  induction s with
  | nil => simp [unbin]
  | cons d s ih =>
    rw [unbin_cons, List.length_cons, pow_succ]
    cases d <;> simp <;> omega

/-- The number the digits of `v` above bit `n` down to bit 0 spell. -/
theorem unbin_testBits (v n : Nat) : unbin ((List.range n).map fun i => v.testBit (n - 1 - i)) = v % 2 ^ n := by
  induction n with
  | zero => simp [unbin, Nat.mod_one]
  | succ n ih =>
    rw [List.range_succ_eq_map, List.map_cons, unbin_cons, List.map_map]
    have : (fun i => v.testBit (n + 1 - 1 - i)) ∘ Nat.succ = fun i => v.testBit (n - 1 - i) := by
      funext i; simp only [Function.comp_apply]; congr 1; omega
    rw [this, ih, List.length_map, List.length_range, Nat.testBit_eq_decide_div_mod_eq]
    have h := Nat.mod_mul (x := v) (a := 2 ^ n) (b := 2)
    rw [pow_succ, h]
    have h2 : v / 2 ^ n % 2 < 2 := Nat.mod_lt _ (by norm_num)
    simp only [Nat.add_sub_cancel, Nat.sub_zero]
    rcases Nat.lt_or_ge (v / 2 ^ n % 2) 1 with h1 | h1
    · simp [show v / 2 ^ n % 2 = 0 by omega]
    · simp [show v / 2 ^ n % 2 = 1 by omega, Nat.add_comm]

/-- `unbin` undoes `bin32` on 32-bit numbers. -/
theorem unbin_bin32 {v : Nat} (h : v < 2 ^ 32) : unbin (bin32 v) = v := by
  have := unbin_testBits v 32
  rw [Nat.mod_eq_of_lt h] at this
  exact this

/-- `unbin` as a weighted sum. -/
theorem unbin_eq_sum (s : Bits) :
    unbin s = ((List.range s.length).map fun k => (s.getD k false).toNat * 2 ^ (s.length - 1 - k)).sum := by
  induction s with
  | nil => simp [unbin]
  | cons d s ih =>
    rw [unbin_cons, List.length_cons, List.range_succ_eq_map, List.map_cons, List.sum_cons, List.map_map, ih]
    congr 2
    refine List.map_congr_left fun k _ => ?_
    simp only [Function.comp_apply, List.getD_cons_succ]
    congr 2; omega

/-! ### Chunks -/

theorem chunks9_of_short {s : Bits} (h : s.length < 9) : chunks9 s = [] := by
  simp [chunks9, Nat.div_eq_of_lt h, chunks]

/-- The first complete piece and the rest. -/
theorem chunks9_append {c s : Bits} (h : c.length = 9) : chunks9 (c ++ s) = c :: chunks9 s := by
  have : (c ++ s).length / 9 = s.length / 9 + 1 := by rw [List.length_append, h]; omega
  rw [chunks9, this, chunks, List.take_left' h, List.drop_left' h, chunks9]

theorem chunks_eq_map (n : Nat) (s : Bits) :
    chunks n s = (List.range n).map fun j => slice s (9 * j) (9 * j + 9) := by
  induction n generalizing s with
  | zero => rfl
  | succ n ih =>
    rw [chunks, ih, List.range_succ_eq_map, List.map_cons, List.map_map]
    congr 1
    refine List.map_congr_left fun j _ => ?_
    simp only [slice, Function.comp_apply, List.take_drop, List.drop_drop]
    congr 1 <;> first | omega | (congr 1; omega)

/-! ### No three consecutive 1 digits -/

theorem verifyNo111_tail {d : Bool} {s : Bits} (h : verifyNo111 (d :: s) = true) : verifyNo111 s = true := by
  match s with
  | [] => rfl
  | [_] => rfl
  | b :: c :: s => simp only [verifyNo111, Bool.and_eq_true] at h; exact h.2

theorem verifyNo111_drop {s : Bits} (h : verifyNo111 s = true) (n : Nat) : verifyNo111 (s.drop n) = true := by
  induction n generalizing s with
  | zero => simpa
  | succ n ih =>
    cases s with
    | nil => rfl
    | cons d s => simpa using ih (verifyNo111_tail h)

/-- R9 by indices. -/
theorem verifyNo111_iff (s : Bits) :
    verifyNo111 s = true ↔ ∀ i, ¬(s[i]? = some true ∧ s[i + 1]? = some true ∧ s[i + 2]? = some true) := by
  induction s with
  | nil => simp [verifyNo111]
  | cons a s ih =>
    match s with
    | [] => simp [verifyNo111]
    | [b] => simp [verifyNo111]
    | b :: c :: s =>
      simp only [verifyNo111, Bool.and_eq_true, ih]
      constructor
      · rintro ⟨h0, h⟩ i
        cases i with
        | zero => cases a <;> cases b <;> cases c <;> simp_all
        | succ i => simpa using h i
      · intro h
        refine ⟨?_, fun i => by simpa using h (i + 1)⟩
        have h0 := h 0
        cases a <;> cases b <;> cases c <;> simp_all

theorem verifyNo111_reverse (s : Bits) : verifyNo111 s.reverse = verifyNo111 s := by
  suffices ∀ s : Bits, verifyNo111 s = true → verifyNo111 s.reverse = true by
    rw [Bool.eq_iff_iff]
    exact ⟨fun h => by simpa using this _ h, this s⟩
  intro s h
  rw [verifyNo111_iff] at h ⊢
  rintro i ⟨h0, h1, h2⟩
  have hl : i + 2 < s.length := by
    have := (List.getElem?_eq_some_iff.1 h2).1; simpa using this
  rw [List.getElem?_reverse (by omega)] at h0 h1 h2
  refine h (s.length - 1 - (i + 2)) ⟨h2, ?_, ?_⟩
  · rwa [show s.length - 1 - (i + 2) + 1 = s.length - 1 - (i + 1) by omega]
  · rwa [show s.length - 1 - (i + 2) + 2 = s.length - 1 - i by omega]

end Sys2Proof.Machine
end

