-- ==== Sys2Proof/Laws/Codec.lean ====
section
/-! SUPPORT. The greedy walk, the weighted sum of a digit string, and the character slots. -/

namespace Sys2Proof.Machine

/-! ### The greedy walk -/

@[simp] theorem length_greedyWalk (ws : List Nat) (r : Nat) : (greedyWalk ws r).length = ws.length := by
  induction ws generalizing r with
  | nil => rfl
  | cons x ws ih => simp only [greedyWalk]; split <;> simp [ih]

@[simp] theorem length_greedy (n : Nat) (seq : List Nat) : (greedy n seq).length = seq.length := by simp [greedy]

/-- The largest weight is decided first, and its digit is the last of the aligned string. -/
theorem greedy_append (n x : Nat) (seq : List Nat) :
    greedy n (seq ++ [x]) = if x ≤ n then greedy (n - x) seq ++ [true] else greedy n seq ++ [false] := by
  simp only [greedy, List.reverse_append, List.reverse_singleton, List.singleton_append, greedyWalk]
  split <;> simp

theorem greedy_zero {seq : List Nat} (h : ∀ x ∈ seq, 0 < x) : greedy 0 seq = List.replicate seq.length false := by
  induction seq using List.reverseRecOn with
  | nil => rfl
  | append_singleton seq x ih =>
    have hx := h x (by simp)
    rw [greedy_append, if_neg (by omega), ih fun y hy => h y (by simp [hy])]
    simp [List.replicate_succ']

/-! ### The weighted sum -/

@[simp] theorem gzrToInteger_nil (seq : List Nat) : gzrToInteger [] seq = 0 := by simp [gzrToInteger]

theorem gzrToInteger_append {ds : Bits} {seq : List Nat} (h : ds.length = seq.length) (d : Bool) (x : Nat) :
    gzrToInteger (ds ++ [d]) (seq ++ [x]) = gzrToInteger ds seq + if d then x else 0 := by
  induction ds generalizing seq with
  | nil => cases seq <;> simp_all [gzrToInteger]
  | cons e ds ih =>
    cases seq with
    | nil => simp at h
    | cons y seq => simp only [List.cons_append, gzrToInteger, ih (by simpa using h)]; omega

theorem gzrToInteger_eq_sum (ds : Bits) (seq : List Nat) :
    gzrToInteger ds seq = (((ds.zip seq).filter fun p => p.1).map fun p => p.2).sum := by
  induction ds generalizing seq with
  | nil => simp
  | cons d ds ih =>
    cases seq with
    | nil => simp [gzrToInteger]
    | cons x seq => cases d <;> simp [gzrToInteger, ih]

theorem gzrToInteger_le_sum (ds : Bits) (seq : List Nat) : gzrToInteger ds seq ≤ seq.sum := by
  induction ds generalizing seq with
  | nil => simp
  | cons d ds ih =>
    cases seq with
    | nil => simp [gzrToInteger]
    | cons x seq => have := ih seq; cases d <;> simp [gzrToInteger] <;> omega

theorem gzrToInteger_zeros (n : Nat) (seq : List Nat) : gzrToInteger (List.replicate n false) seq = 0 := by
  induction n generalizing seq with
  | zero => simp
  | succ n ih => cases seq <;> simp [List.replicate_succ, gzrToInteger, ih]

/-- The greedy digits never sum to more than the number. -/
theorem gzrToInteger_greedy_le (n : Nat) (seq : List Nat) : gzrToInteger (greedy n seq) seq ≤ n := by
  induction seq using List.reverseRecOn generalizing n with
  | nil => simp [greedy, greedyWalk]
  | append_singleton seq x ih =>
    rw [greedy_append]
    split
    · rw [gzrToInteger_append (by simp)]; have := ih (n - x); simp; omega
    · rw [gzrToInteger_append (by simp)]; have := ih n; simp; omega

/-- Below the next term the greedy walk over the terms ends with remainder 0. -/
theorem gzrToInteger_greedy_trib {k n : Nat} (h : n < trib k) :
    gzrToInteger (greedy n (tribPrefix k)) (tribPrefix k) = n := by
  induction k generalizing n with
  | zero => have : n = 0 := by simp [trib] at h; omega
            subst this; rfl
  | succ k ih =>
    have := trib_succ_le k
    rw [tribPrefix_succ, greedy_append]
    split
    · rw [gzrToInteger_append (by simp), ih (by omega)]; simp; omega
    · rw [gzrToInteger_append (by simp), ih (by omega)]; simp

theorem reverse_tribPrefix_succ (k : Nat) : (tribPrefix (k + 1)).reverse = trib k :: (tribPrefix k).reverse := by
  simp [tribPrefix_succ]

/-- Below the next term the greedy walk over the terms takes no three neighbours. -/
theorem verifyNo111_greedy_trib {k n : Nat} (h : n < trib k) : verifyNo111 (greedy n (tribPrefix k)) = true := by
  rw [greedy, verifyNo111_reverse]
  induction k generalizing n with
  | zero => rfl
  | succ k ih =>
    have hle := trib_succ_le k
    match k with
    | 0 => rw [reverse_tribPrefix_succ]; simp only [greedyWalk]; split <;> rfl
    | 1 =>
      simp only [reverse_tribPrefix_succ, greedyWalk]
      repeat' split
      all_goals rfl
    | k + 2 =>
      have hs : trib (k + 2 + 1) = trib (k + 2) + trib (k + 1) + trib k := trib_step k
      rw [reverse_tribPrefix_succ, greedyWalk]
      have key : ∀ (d : Bool) (r : Nat), r < trib (k + 2) → (d = true → r < trib (k + 1) + trib k) →
          verifyNo111 (d :: greedyWalk (tribPrefix (k + 2)).reverse r) = true := by
        intro d r hr hd
        have hno := ih hr
        rw [reverse_tribPrefix_succ, reverse_tribPrefix_succ] at hno ⊢
        simp only [greedyWalk] at hno ⊢
        by_cases h1 : trib (k + 1) ≤ r
        · rw [if_pos h1] at hno ⊢
          by_cases h2 : trib k ≤ r - trib (k + 1)
          · rw [if_pos h2] at hno ⊢
            cases d
            · simpa [verifyNo111] using hno
            · exact absurd (hd rfl) (by omega)
          · rw [if_neg h2] at hno ⊢
            simpa [verifyNo111] using hno
        · rw [if_neg h1] at hno ⊢
          by_cases h2 : trib k ≤ r
          · rw [if_pos h2] at hno ⊢; simpa [verifyNo111] using hno
          · rw [if_neg h2] at hno ⊢; simpa [verifyNo111] using hno
      split
      · exact key true _ (by omega) fun _ => by omega
      · exact key false _ (by omega) (by simp)

/-! ### Digits at the wrong weights -/

/-- One place lower, in a strictly increasing table, a digit string with a 1 in it is worth less. -/
theorem gzrToInteger_shift {ds : Bits} {x : Nat} {seq : List Nat} (hs : (x :: seq).Pairwise fun a b => a < b)
    (hl : ds.length ≤ seq.length) :
    gzrToInteger ds (x :: seq) ≤ gzrToInteger ds seq ∧ (true ∈ ds → gzrToInteger ds (x :: seq) < gzrToInteger ds seq) := by
  induction ds generalizing x seq with
  | nil => simp
  | cons d ds ih =>
    cases seq with
    | nil => simp at hl
    | cons y seq =>
      have hxy : x < y := (List.pairwise_cons.1 hs).1 y (by simp)
      obtain ⟨h1, h2⟩ := ih (List.pairwise_cons.1 hs).2 (by simpa using hl)
      cases d
      · simp only [gzrToInteger, List.mem_cons, Bool.true_eq_false, false_or, Bool.false_eq_true, if_false, Nat.zero_add]
        exact ⟨h1, h2⟩
      · simp only [gzrToInteger, if_true]
        exact ⟨by omega, fun _ => by omega⟩

/-- Stripping leading zeros from an aligned string with a 1 in it makes it worth less. -/
theorem gzrToInteger_strip {ds : Bits} {seq : List Nat} {z : Nat} (hs : seq.Pairwise fun a b => a < b) (hz : 1 ≤ z)
    (hl : z + ds.length = seq.length) (h1 : true ∈ ds) :
    gzrToInteger ds seq < gzrToInteger (List.replicate z false ++ ds) seq := by
  induction z generalizing seq with
  | zero => omega
  | succ z ih =>
    cases seq with
    | nil => simp at hl
    | cons x seq =>
      have hshift := (gzrToInteger_shift hs (ds := ds) (by simp at hl; omega)).2 h1
      simp only [List.replicate_succ, List.cons_append, gzrToInteger, Bool.false_eq_true, if_false, Nat.zero_add]
      rcases Nat.eq_zero_or_pos z with rfl | hz
      · simpa using hshift
      · exact hshift.trans (ih (List.pairwise_cons.1 hs).2 hz (by simp at hl; omega))

/-! ### The encoder -/

theorem integerToGzr_pos {n : Int} (h : 0 < n) (seq : List Nat) :
    integerToGzr n seq = lstrip0 (greedy n.toNat seq) := by
  simp [integerToGzr, Int.not_le.2 h]

theorem integerToGzr_nonpos {n : Int} (h : n ≤ 0) (seq : List Nat) : integerToGzr n seq = [false] := by
  simp [integerToGzr, h]

theorem length_integerToGzr_le (n : Int) (seq : List Nat) : (integerToGzr n seq).length ≤ max 1 seq.length := by
  rcases lt_or_ge 0 n with h | h
  · rw [integerToGzr_pos h, lstrip0_eq_drop, List.length_drop, length_greedy]; omega
  · rw [integerToGzr_nonpos h]; simp

/-- The greedy walk of a positive number over a table that starts with weight 1 takes something. -/
theorem true_mem_greedy {n : Nat} (hn : 1 ≤ n) (seq : List Nat) : true ∈ greedy n (1 :: seq) := by
  induction seq using List.reverseRecOn with
  | nil => simp [greedy, greedyWalk, hn]
  | append_singleton seq x ih =>
    rw [← List.cons_append, greedy_append]
    split <;> simp [ih]

/-! ### The constant table and the slots -/

theorem w255_eq : w255 = tribPrefix 9 := by decide

theorem sum_w255 : w255.sum = 325 := by decide

/-- The slot of a code point is its aligned greedy string (R89). -/
theorem charSlot_eq (c : Byte) : charSlot c = greedy c.toNat w255 := by
  have hlen : (greedy c.toNat w255).length = Config.slotWidth := by rw [length_greedy, w255_eq]; rfl
  rcases Nat.eq_zero_or_pos c.toNat with h | h
  · rw [charSlot, h, greedy_zero (by decide)]; decide
  · rw [charSlot, integerToGzr_pos (by omega), Int.toNat_natCast, ← hlen, lpad0_lstrip0]

@[simp] theorem length_charSlot (c : Byte) : (charSlot c).length = 9 := by
  rw [charSlot_eq, length_greedy, w255_eq, length_tribPrefix]

/-- A slot is worth its code point. -/
theorem gzrToInteger_charSlot (c : Byte) : gzrToInteger (charSlot c) w255 = c.toNat := by
  have h : trib 9 = 274 := by decide
  have := c.isLt
  rw [charSlot_eq, w255_eq, gzrToInteger_greedy_trib (by omega)]

theorem verifyNo111_charSlot (c : Byte) : verifyNo111 (charSlot c) = true := by
  have h : trib 9 = 274 := by decide
  have := c.isLt
  rw [charSlot_eq, w255_eq, verifyNo111_greedy_trib (by omega)]

@[simp] theorem length_textToGzrBits (text : List Byte) : (textToGzrBits text).length = 9 * text.length := by
  induction text with
  | nil => rfl
  | cons c text ih =>
    simp only [textToGzrBits, List.flatMap_cons, List.length_append, length_charSlot, List.length_cons] at ih ⊢
    omega

/-- The complete pieces of a payload are its slots. -/
theorem chunks9_textToGzrBits (text : List Byte) : chunks9 (textToGzrBits text) = text.map charSlot := by
  induction text with
  | nil => rfl
  | cons c text ih =>
    rw [textToGzrBits, List.flatMap_cons, chunks9_append (by simp), ← textToGzrBits, ih]; rfl

theorem length_gzrBitsToText_le (bits : Bits) : (gzrBitsToText bits).length ≤ bits.length / 9 := by
  refine (List.length_filterMap_le _ _).trans ?_
  rw [chunks9, chunks_eq_map, List.length_map, List.length_range]

end Sys2Proof.Machine
end

