-- ==== Sys2Proof/Laws/Operands.lean ====
section
/-! SUPPORT. The operand fields of GRIDLD and what each form of result stream carries. -/

namespace Sys2Proof.Machine

/-! ### The dimension operands of GRIDLD -/

theorem upperHalf_eq_zero (a : Word) : upperHalf a = 0#16 ↔ a.toNat < 2 ^ 16 := by
  rw [← BitVec.toNat_inj]
  have := a.isLt
  simp [upperHalf, BitVec.extractLsb'_toNat, Nat.shiftRight_eq_div_pow]
  omega

theorem dimField_toNat {a : Word} (h : a.toNat < 2 ^ 16) : (dimField a).toNat = a.toNat := by
  simp only [dimField, BitVec.extractLsb'_toNat, Nat.shiftRight_zero]
  exact Nat.mod_eq_of_lt h

/-! ### Result streams -/

theorem carries_streamOfBits (l : Bits) : Carries (streamOfBits l) (l.map Bool.toNat) := by
  rw [Carries, streamOfBits, List.map_map]
  refine List.map_congr_left fun d _ => ?_
  cases d <;> rfl

theorem carries_streamOfText (l : List CodePoint) : Carries (streamOfText l) (l.map BitVec.toNat) := by
  rw [Carries, streamOfText, List.map_map]
  refine List.map_congr_left fun d _ => ?_
  have := d.isLt
  simp only [Function.comp_apply, BitVec.toNat_setWidth]; omega

theorem carries_streamOfPixels (l : List Byte) : Carries (streamOfPixels l) (l.map BitVec.toNat) := by
  rw [Carries, streamOfPixels, List.map_map]
  refine List.map_congr_left fun d _ => ?_
  have := d.isLt
  simp only [Function.comp_apply, BitVec.toNat_setWidth]; omega

/-- Numbers that fit a beat travel whole. -/
theorem carries_streamOfWeights {l : List Nat} (h : ∀ x ∈ l, x < 2 ^ 32) : Carries (streamOfWeights l) l := by
  rw [Carries, streamOfWeights, List.map_map]
  conv_rhs => rw [← List.map_id l]
  refine List.map_congr_left fun d hd => ?_
  have := h d hd
  simp only [Function.comp_apply, BitVec.toNat_ofNat, id_eq]; omega

end Sys2Proof.Machine
end

