-- ==== Sys2Proof/Laws/Exec.lean ====
section
/-! SUPPORT. Everything a meaning can do when it answers a next state, said once: later proofs cite this and unfold no
meaning. -/

namespace Sys2Proof.Machine

/-- What an instruction that succeeds writes before it responds. -/
inductive Writes (s : State) : Instr → State → Prop
  /-- Nothing: the twelve instructions that only read. -/
  | nothing {i : Instr} (h : writesNothing i = true) : Writes s i s
  /-- TRIBGEN: the table. -/
  | table (a : Word) : Writes s (.tribgen a) (s.setTable (generate a.toInt))
  /-- LSBEMB: the covered pixels. -/
  | embedded {f : Bits} {m : Memory} (hg : s.gvalid = true) (hm : embedGrid f s = some m) :
      Writes s (.lsbemb f) (s.setPix m)
  /-- STEGENC: the pixels its frame covers. -/
  | encoded {text : List Byte} {m : Memory} (hg : s.gvalid = true)
      (hm : embedGrid (frame (textToGzrBits text)) s = some m) : Writes s (.stegenc text) (s.setPix m)
  /-- GRIDLD: the grid. -/
  | loaded {a b : Word} {px : List Byte} (ha : a.toNat < 2 ^ 16) (hb : b.toNat < 2 ^ 16)
      (hl : px.length = a.toNat * b.toNat) : Writes s (.gridld a b px) (s.setGrid (dimField a) (dimField b) px)

/-- No write touches the host's side. -/
theorem Writes.host_side {s u : State} {i : Instr} (h : Writes s i u) :
    u.responses = s.responses ∧ u.inputs = s.inputs := by
  cases h <;> exact ⟨rfl, rfl⟩

/-- A meaning that answers a next state raises a cause R151 lists for it and changes nothing else, or writes what the
instruction writes and responds OK. -/
theorem exec_eq_next {i : Instr} {s t : State} (h : exec i s = .next t) :
    (∃ cause info, cause ∈ mayRaise i ∧ t = s.respond ⟨cause, info, []⟩) ∨
    ∃ val ts u, Writes s i u ∧ t = u.respond ⟨.ok, val, ts⟩ := by
  cases i with
  | tribgen a => exact .inr ⟨_, _, _, .table a, (succeed_eq_next.1 h).symm⟩
  | gzrenc n =>
    cases hv : s.wvalid
    · exact .inl ⟨_, _, by simp [mayRaise], (Host.Outcome.next.inj ((requireTable_invalid hv _).symm.trans h)).symm⟩
    · exact .inr ⟨_, _, _, .nothing rfl, (succeed_eq_next.1 ((requireTable_valid hv _).symm.trans h)).symm⟩
  | gzrdec digits =>
    cases hv : s.wvalid
    · exact .inl ⟨_, _, by simp [mayRaise], (Host.Outcome.next.inj ((requireTable_invalid hv _).symm.trans h)).symm⟩
    · exact .inr ⟨_, _, _, .nothing rfl, (succeed_eq_next.1 ((requireTable_valid hv _).symm.trans h)).symm⟩
  | txt2bits _ => exact .inr ⟨_, _, _, .nothing rfl, (succeed_eq_next.1 h).symm⟩
  | bits2txt _ => exact .inr ⟨_, _, _, .nothing rfl, (succeed_eq_next.1 h).symm⟩
  | frame p =>
    rw [exec, execFrame] at h
    split at h
    · exact .inl ⟨_, _, by simp [mayRaise], (raise_eq_next.1 h).symm⟩
    · exact .inr ⟨_, _, _, .nothing rfl, (succeed_eq_next.1 h).symm⟩
  | unframeh f =>
    rw [exec, execUnframeh] at h
    split at h
    · exact .inl ⟨_, _, by simp [mayRaise], (raise_eq_next.1 h).symm⟩
    · exact .inr ⟨_, _, _, .nothing rfl, (succeed_eq_next.1 h).symm⟩
  | unframep _ _ => exact .inr ⟨_, _, _, .nothing rfl, (succeed_eq_next.1 h).symm⟩
  | gridld a b px =>
    rw [exec, execGridld] at h
    split at h
    · exact .inl ⟨_, _, by simp [mayRaise], (raise_eq_next.1 h).symm⟩
    · rename_i hd
      rw [not_or, not_not, not_not, upperHalf_eq_zero, upperHalf_eq_zero] at hd
      split at h
      · exact .inl ⟨_, _, by simp [mayRaise], (raise_eq_next.1 h).symm⟩
      · rename_i hl
        rw [not_not, dimField_toNat hd.1, dimField_toNat hd.2] at hl
        exact .inr ⟨_, _, _, .loaded hd.1 hd.2 hl, (succeed_eq_next.1 h).symm⟩
  | lsbemb f =>
    cases hv : s.gvalid
    · exact .inl ⟨_, _, by simp [mayRaise], (Host.Outcome.next.inj ((requireGrid_invalid hv _).symm.trans h)).symm⟩
    · rw [exec, execLsbemb, requireGrid_valid hv] at h
      obtain ⟨m, hm, h⟩ := withPixels_eq_next h
      exact .inr ⟨_, _, _, .embedded hv hm, (succeed_eq_next.1 h).symm⟩
  | lsbext a b =>
    cases hv : s.gvalid
    · exact .inl ⟨_, _, by simp [mayRaise], (Host.Outcome.next.inj ((requireGrid_invalid hv _).symm.trans h)).symm⟩
    · rw [exec, execLsbext, requireGrid_valid hv] at h
      obtain ⟨_, _, h⟩ := withPixels_eq_next h
      exact .inr ⟨_, _, _, .nothing rfl, (succeed_eq_next.1 h).symm⟩
  | capq =>
    cases hv : s.gvalid
    · exact .inl ⟨_, _, by simp [mayRaise], (Host.Outcome.next.inj ((requireGrid_invalid hv _).symm.trans h)).symm⟩
    · exact .inr ⟨_, _, _, .nothing rfl, (succeed_eq_next.1 ((requireGrid_valid hv _).symm.trans h)).symm⟩
  | capchk a =>
    cases hv : s.gvalid
    · exact .inl ⟨_, _, by simp [mayRaise], (Host.Outcome.next.inj ((requireGrid_invalid hv _).symm.trans h)).symm⟩
    · rw [exec, execCapchk, requireGrid_valid hv, checkCapacity] at h
      split at h
      · exact .inl ⟨_, _, by simp [mayRaise], (raise_eq_next.1 h).symm⟩
      · exact .inr ⟨_, _, _, .nothing rfl, (succeed_eq_next.1 h).symm⟩
  | gridrd =>
    cases hv : s.gvalid
    · exact .inl ⟨_, _, by simp [mayRaise], (Host.Outcome.next.inj ((requireGrid_invalid hv _).symm.trans h)).symm⟩
    · rw [exec, execGridrd, requireGrid_valid hv] at h
      obtain ⟨_, _, h⟩ := withPixels_eq_next h
      exact .inr ⟨_, _, _, .nothing rfl, (succeed_eq_next.1 h).symm⟩
  | stegenc text =>
    cases hv : s.gvalid
    · exact .inl ⟨_, _, by simp [mayRaise], (Host.Outcome.next.inj ((requireGrid_invalid hv _).symm.trans h)).symm⟩
    · simp only [exec, execStegenc, requireGrid_valid hv, checkCapacity] at h
      split at h
      · exact .inl ⟨_, _, by simp [mayRaise], (raise_eq_next.1 h).symm⟩
      · obtain ⟨m, hm, h⟩ := withPixels_eq_next h
        exact .inr ⟨_, _, _, .encoded hv hm, (succeed_eq_next.1 h).symm⟩
  | stegdec =>
    cases hv : s.gvalid
    · exact .inl ⟨_, _, by simp [mayRaise], (Host.Outcome.next.inj ((requireGrid_invalid hv _).symm.trans h)).symm⟩
    · simp only [exec, execStegdec, requireGrid_valid hv] at h
      split at h
      · exact .inl ⟨_, _, by simp [mayRaise], (raise_eq_next.1 h).symm⟩
      · obtain ⟨_, _, h⟩ := withPixels_eq_next h
        split at h
        · exact .inl ⟨_, _, by simp [mayRaise], (raise_eq_next.1 h).symm⟩
        · obtain ⟨_, _, h⟩ := withPixels_eq_next h
          exact .inr ⟨_, _, _, .nothing rfl, (succeed_eq_next.1 h).symm⟩

end Sys2Proof.Machine
end

