-- ==== Sys2Proof/Laws/HostSequences.lean ====
section
/-! SUPPORT. What the host's sequences are made of: issuing a command, going on after it or stopping, and reading a bit
stream. -/

namespace Sys2Proof.Machine

/-- Issuing an instruction whose presentation decodes to it hands the host the response and the state its meaning
answers. -/
theorem issue_eq_some {i : Instr} {s u : State} {r : Response} (hd : decode (encode i) = .ok i)
    (h : exec i s = .next (u.respond r)) : issue i s = some (r, u.respond r) := by
  have hs : step { s with inputs := .command (encode i) :: s.inputs } = .next (u.respond r) := by
    simp only [step, nextInput, List.head?_cons, hd]
    exact h
  simp [issue, hs]

/-- A sequence goes on after a command that ends OK. -/
theorem whileOk_ok {r : Response} {t : State} (h : r.status = .ok) (go : Response → State → HostRun) :
    whileOk (some (r, t)) go = go r t := by
  simp [whileOk, h]

/-- A sequence stops at a command that does not. -/
theorem whileOk_stop {r : Response} {t : State} (h : r.status ≠ .ok) (go : Response → State → HostRun) :
    whileOk (some (r, t)) go = some (r, t) := by
  simp [whileOk, h]

/-- The host reads back the bits the block sent. -/
@[simp] theorem bitsOfStream_streamOfBits (l : Bits) : bitsOfStream (streamOfBits l) = l := by
  rw [bitsOfStream, streamOfBits, List.map_map]
  conv_rhs => rw [← List.map_id l]
  refine List.map_congr_left fun d _ => ?_
  cases d <;> rfl

end Sys2Proof.Machine
end

