-- ==== Sys2Proof/Laws/PerInstr.lean ====
section
/-! SUPPORT. A fact about every instruction as syntax: its presentation sets no reserved bit and puts nothing in an
operand its row ignores (spec/30_encoding.md R40, R42, R44, R45). -/

namespace Sys2Proof.Laws.CanonicalPresentation

/-- The command that presents the instruction has a zero reserved field and no content in ignored operands. -/
def Statement (i : Instr) : Prop := (encode i).reservedZero = true ∧ (encode i).canonical = encode i

/-- The two facts from what the row of a command word reads (R44, R45): what is not read is 0 or empty. -/
theorem of_row {w : BitVec 8} {a b : Word} {s : List Byte} (readsA readsB readsStream : Bool)
    (h : Command.rsv ⟨w, 0, 0, []⟩ = 0#4 ∧ Command.usesA ⟨w, 0, 0, []⟩ = readsA ∧ Command.usesB ⟨w, 0, 0, []⟩ = readsB ∧
      Command.usesStream ⟨w, 0, 0, []⟩ = readsStream)
    (ha : readsA = true ∨ a = 0#32) (hb : readsB = true ∨ b = 0#32) (hs : readsStream = true ∨ s = []) :
    Command.reservedZero ⟨w, a, b, s⟩ = true ∧ Command.canonical ⟨w, a, b, s⟩ = ⟨w, a, b, s⟩ := by
  obtain ⟨h0, h1, h2, h3⟩ := h
  have h1 : Command.usesA ⟨w, a, b, s⟩ = readsA := h1
  have h2 : Command.usesB ⟨w, a, b, s⟩ = readsB := h2
  have h3 : Command.usesStream ⟨w, a, b, s⟩ = readsStream := h3
  have h0 : Command.rsv ⟨w, a, b, s⟩ = 0#4 := h0
  refine ⟨by simp [Command.reservedZero, h0], ?_⟩
  simp only [Command.canonical, h1, h2, h3, Command.mk.injEq, true_and]
  refine ⟨?_, ?_, ?_⟩ <;> split <;> simp_all

theorem tribgen (threshold : Word) : Statement (.tribgen threshold) :=
  of_row true false false (by decide) (.inl rfl) (.inr rfl) (.inr rfl)
theorem gzrenc (n : Word) : Statement (.gzrenc n) :=
  of_row true false false (by decide) (.inl rfl) (.inr rfl) (.inr rfl)
theorem gzrdec (digits : Bits) : Statement (.gzrdec digits) :=
  of_row false false true (by decide) (.inr rfl) (.inr rfl) (.inl rfl)
theorem txt2bits (text : List Byte) : Statement (.txt2bits text) :=
  of_row false false true (by decide) (.inr rfl) (.inr rfl) (.inl rfl)
theorem bits2txt (bits : Bits) : Statement (.bits2txt bits) :=
  of_row false false true (by decide) (.inr rfl) (.inr rfl) (.inl rfl)
theorem frame (payload : Bits) : Statement (.frame payload) :=
  of_row false false true (by decide) (.inr rfl) (.inr rfl) (.inl rfl)
theorem unframeh (framed : Bits) : Statement (.unframeh framed) :=
  of_row false false true (by decide) (.inr rfl) (.inr rfl) (.inl rfl)
theorem unframep (payloadBitLength : Word) (framed : Bits) : Statement (.unframep payloadBitLength framed) :=
  of_row true false true (by decide) (.inl rfl) (.inr rfl) (.inl rfl)
theorem lsbemb (framed : Bits) : Statement (.lsbemb framed) :=
  of_row false false true (by decide) (.inr rfl) (.inr rfl) (.inl rfl)
theorem lsbext (start length : Word) : Statement (.lsbext start length) :=
  of_row true true false (by decide) (.inl rfl) (.inl rfl) (.inr rfl)
theorem capq : Statement .capq :=
  of_row false false false (by decide) (.inr rfl) (.inr rfl) (.inr rfl)
theorem capchk (payloadBitLen : Word) : Statement (.capchk payloadBitLen) :=
  of_row true false false (by decide) (.inl rfl) (.inr rfl) (.inr rfl)
theorem gridld (a b : Word) (pixels : List Byte) : Statement (.gridld a b pixels) :=
  of_row true true true (by decide) (.inl rfl) (.inl rfl) (.inl rfl)
theorem gridrd : Statement .gridrd :=
  of_row false false false (by decide) (.inr rfl) (.inr rfl) (.inr rfl)
theorem stegenc (text : List Byte) : Statement (.stegenc text) :=
  of_row false false true (by decide) (.inr rfl) (.inr rfl) (.inl rfl)
theorem stegdec : Statement .stegdec :=
  of_row false false false (by decide) (.inr rfl) (.inr rfl) (.inr rfl)

end Sys2Proof.Laws.CanonicalPresentation
end

