-- ==== Sys2Proof/Tests/Slice0.lean ====
section
/-! SUPPORT. Tests: well-formedness, decoding, one step of each instruction, and for every obligation with hypotheses a
state and operands that meet them. Expected results are from spec/95_test_vectors.md, whose section is cited, or from
the rule cited. -/

namespace Sys2Proof.Tests

open Sys2Proof Sys2Proof.Machine

/-! ### Helpers -/

/-- Digits written 0 and 1. -/
def digits (l : List Nat) : Bits := l.map fun d => d == 1

/-- Status, `val` and stream of the last response after the instruction. -/
def answer (i : Instr) (s : State) : Option (Status × Nat × List Nat) :=
  match exec i s with
  | .next t => t.responses.getLast?.map fun r => (r.status, r.val.toNat, r.t.map BitVec.toNat)
  | _ => none

/-- The pixel values at scan indices 0 to `n - 1` after the instruction. -/
def pixelsAfter (i : Instr) (n : Nat) (s : State) : Option (List (Option Nat)) :=
  match exec i s with
  | .next t => some ((List.range n).map fun k => (t.pix.read k).map BitVec.toNat)
  | _ => none

/-- A grid as GRIDLD leaves it. -/
def grid (h w : Dim) (pixels : List Byte) : State := State.reset.setGrid h w pixels

/-- The 2 by 4 grid of section 7. -/
def grid24 : State := grid 2 4 [10, 11, 12, 13, 254, 255, 0, 1]

/-- A 4 by 8 grid of zeros: exactly a header. -/
def grid48 : State := grid 4 8 (List.replicate 32 0)

/-- A 4 by 8 grid whose low bits spell a declared length of 1, one more than it has room for. -/
def gridDeclaring1 : State := grid 4 8 (List.replicate 31 0 ++ [1])

/-- The table of threshold 255. -/
def table255 : State := State.reset.setTable (generate 255)

/-- A table and a grid. -/
def both : State := table255.setGrid 2 4 [10, 11, 12, 13, 254, 255, 0, 1]

/-- A state whose next input is the command. -/
def facing (s : State) (c : Command) : State := { s with inputs := [.command c] }

/-! ### Well-formed commands (R42, R45) -/

theorem test_wellFormed_reads_bits : (Command.mk 0x02#8 0 0 [0, 1, 1]).wellFormed = true := by decide
theorem test_illFormed_reserved_bit : (Command.mk 0x10#8 0 0 []).wellFormed = false := by decide
theorem test_illFormed_bit_element : (Command.mk 0x02#8 0 0 [0, 2]).wellFormed = false := by decide
theorem test_ignored_stream_is_no_fault_of_form : (Command.mk 0x0A#8 5 6 [200]).wellFormed = true := by decide

/-! ### Decoding, one word for each instruction, the word as R42 and R43 lay it out: `rsv` then `op` -/

theorem test_decode_tribgen : decode ⟨0b00000000#8, 0xFF#32, 0, []⟩ = .ok (.tribgen 255#32) := by decide
theorem test_decode_gzrenc : decode ⟨0b00000001#8, 0xFFFFFFFD#32, 0, []⟩ = .ok (.gzrenc (-3)) := by decide
theorem test_decode_gzrdec : decode ⟨0b00000010#8, 0, 0, [1, 0]⟩ = .ok (.gzrdec [true, false]) := by decide
theorem test_decode_txt2bits : decode ⟨0b00000011#8, 0, 0, [72, 105]⟩ = .ok (.txt2bits [72, 105]) := by decide
theorem test_decode_bits2txt : decode ⟨0b00000100#8, 0, 0, [0, 1]⟩ = .ok (.bits2txt [false, true]) := by decide
theorem test_decode_frame : decode ⟨0b00000101#8, 0, 0, [1]⟩ = .ok (.frame [true]) := by decide
theorem test_decode_unframeh : decode ⟨0b00000110#8, 0, 0, [1]⟩ = .ok (.unframeh [true]) := by decide
theorem test_decode_unframep : decode ⟨0b00000111#8, 9, 0, [1]⟩ = .ok (.unframep 9 [true]) := by decide
theorem test_decode_lsbemb : decode ⟨0b00001000#8, 0, 0, [1, 1, 0]⟩ = .ok (.lsbemb [true, true, false]) := by decide
theorem test_decode_lsbext : decode ⟨0b00001001#8, 0x20#32, 0x5A#32, []⟩ = .ok (.lsbext 32 90) := by decide
theorem test_decode_capq : decode ⟨0b00001010#8, 0, 0, []⟩ = .ok .capq := by decide
theorem test_decode_capchk : decode ⟨0b00001011#8, 0x12#32, 0, []⟩ = .ok (.capchk 18) := by decide
theorem test_decode_gridld : decode ⟨0b00001100#8, 1, 2, [7, 8]⟩ = .ok (.gridld 1 2 [7, 8]) := by decide
theorem test_decode_gridrd : decode ⟨0b00001101#8, 0, 0, []⟩ = .ok .gridrd := by decide
theorem test_decode_stegenc : decode ⟨0b00001110#8, 0, 0, [72]⟩ = .ok (.stegenc [72]) := by decide
theorem test_decode_stegdec : decode ⟨0b00001111#8, 0, 0, []⟩ = .ok .stegdec := by decide
theorem test_decode_reserved : decode ⟨0b00010000#8, 255, 0, []⟩ = .error (.reservedBits 0x10) := by decide

/-- The opcode table's numbering: `b` of LSBEXT 0, 32 stands in bits 71:40, its word in bits 7:0. -/
theorem test_table_word : decodeTableWord 72 (0x00000020 * 2 ^ 40 + 0x09) = some (.lsbext 0 32) := by decide

/-! ### One step of each instruction -/

/-- Section 2: the threshold 81 is included. -/
theorem test_tribgen_includes_threshold :
    answer (.tribgen 81) State.reset = some (.ok, 8, [1, 2, 4, 7, 13, 24, 44, 81]) := by decide
/-- Section 2: threshold -5. -/
theorem test_tribgen_negative : answer (.tribgen 0xFFFFFFFB) State.reset = some (.ok, 3, [1, 2, 4]) := by decide
/-- Section 4: GZRENC 2 strips a zero. -/
theorem test_gzrenc_strips : answer (.gzrenc 2) table255 = some (.ok, 8, [1, 0, 0, 0, 0, 0, 0, 0]) := by decide
/-- Section 4: `n` = -2147483648. -/
theorem test_gzrenc_negative : answer (.gzrenc 0x80000000) table255 = some (.ok, 1, [0]) := by decide
/-- Section 4: GZRDEC of "01". -/
theorem test_gzrdec_order : answer (.gzrdec (digits [0, 1])) table255 = some (.ok, 2, []) := by decide
/-- Section 4: digits beyond the table are ignored. -/
theorem test_gzrdec_beyond_table :
    answer (.gzrdec (digits [1, 1, 1, 1, 1, 1, 1, 1, 1, 1, 1, 1, 1])) table255 = some (.ok, 325, []) := by decide
/-- Section 5. -/
theorem test_txt2bits_two_slots : answer (.txt2bits [72, 105]) State.reset =
    some (.ok, 18, [0, 0, 1, 0, 0, 1, 1, 0, 0, 0, 0, 0, 0, 0, 1, 0, 1, 0]) := by decide
/-- Section 5: code point 0 has a slot of zeros. -/
theorem test_txt2bits_zero : answer (.txt2bits [0]) State.reset = some (.ok, 9, [0, 0, 0, 0, 0, 0, 0, 0, 0]) := by decide
/-- Section 5: a zero slot between two characters. -/
theorem test_bits2txt_zero_slot : answer (.bits2txt (digits [0, 0, 1, 0, 0, 1, 1, 0, 0, 0, 0, 0, 0, 0, 0, 0, 0, 0,
    0, 0, 0, 0, 0, 1, 0, 1, 0])) State.reset = some (.ok, 2, [72, 105]) := by decide
/-- Section 5: the 9-bit code point and an incomplete last piece. -/
theorem test_bits2txt_largest :
    answer (.bits2txt (digits [1, 1, 1, 1, 1, 1, 1, 1, 1, 1])) State.reset = some (.ok, 1, [325]) := by decide
/-- Section 6. -/
theorem test_frame_one : answer (.frame [true]) State.reset = some (.ok, 33,
    [0, 0, 0, 0, 0, 0, 0, 0, 0, 0, 0, 0, 0, 0, 0, 0, 0, 0, 0, 0, 0, 0, 0, 0, 0, 0, 0, 0, 0, 0, 0, 1, 1]) := by decide
/-- Section 6: 2^32 digits have no frame. -/
theorem test_frame_too_long : ∃ p : Bits, p.length = 2 ^ 32 ∧
    exec (.frame p) State.reset = .next (State.reset.respond ⟨.operandError, 0#64, []⟩) := by
  obtain ⟨p, hp⟩ : ∃ p : Bits, p.length = 2 ^ 32 := ⟨List.replicate _ false, List.length_replicate⟩
  exact ⟨p, hp, if_pos (by rw [hp])⟩
/-- Section 6: the most significant digit. -/
theorem test_unframeh_first_digit :
    answer (.unframeh (true :: List.replicate 31 false)) State.reset = some (.ok, 2147483648, []) := by decide
/-- Section 6: 31 digits. -/
theorem test_unframeh_short :
    answer (.unframeh (List.replicate 31 false)) State.reset = some (.malformedHeader, 31 * 2 ^ 32, []) := by decide
/-- Section 6: a length beyond the frame is clipped. -/
theorem test_unframep_clips : answer (.unframep 20 (List.replicate 32 false ++ digits [0, 0, 1])) State.reset =
    some (.ok, 3, [0, 0, 1]) := by decide
/-- Section 6. -/
theorem test_unframep_no_payload : answer (.unframep 5 (digits [0, 1, 0, 1])) State.reset = some (.ok, 0, []) := by decide
/-- Section 7, line 5. -/
theorem test_lsbemb_writes : pixelsAfter (.lsbemb (digits [1, 1, 0])) 8 grid24 =
    some ([11, 11, 12, 13, 254, 255, 0, 1].map some) := by decide
/-- Section 7, line 12: ten bits for eight pixels. -/
theorem test_lsbemb_clips : answer (.lsbemb (digits [0, 1, 0, 1, 0, 1, 0, 1, 1, 1])) grid24 = some (.ok, 8, []) := by decide
/-- Section 7, line 8. -/
theorem test_lsbext_clips : answer (.lsbext 6 5) grid24 = some (.ok, 2, [0, 1]) := by decide
/-- Section 7, line 11: the sum of the operands does not wrap. -/
theorem test_lsbext_no_wrap : answer (.lsbext 0xFFFFFFFF 0xFFFFFFFF) grid24 = some (.ok, 0, []) := by decide
/-- Section 7, line 2. -/
theorem test_capq : answer .capq grid24 = some (.ok, 8 * 2 ^ 32 + 1, []) := by decide
/-- Section 8, line 3. -/
theorem test_capq_without_grid : answer .capq State.reset = some (.gridInvalid, 0, []) := by decide
/-- Section 7, line 3. -/
theorem test_capchk_fits : answer (.capchk 7) grid24 = some (.ok, 1, []) := by decide
/-- Section 7, line 4. -/
theorem test_capchk_refuses : answer (.capchk 8) grid24 = some (.capacityExceeded, 1 * 2 ^ 32 + 2, []) := by decide
/-- Section 7, line 15. -/
theorem test_gridld_wrong_length : answer (.gridld 2 4 [1, 2, 3]) grid24 = some (.operandError, 2, []) := by decide
/-- Section 7, line 16: the dimension is looked at before the length. -/
theorem test_gridld_wide_dimension : answer (.gridld 0x10002 4 []) grid24 = some (.operandError, 1, []) := by decide
/-- Section 7, line 14. -/
theorem test_gridrd : answer .gridrd grid24 = some (.ok, 0x00020004, [10, 11, 12, 13, 254, 255, 0, 1]) := by decide
/-- Section 7: 2 by 4 takes no character. -/
theorem test_stegenc_refuses : answer (.stegenc [65]) grid24 = some (.capacityExceeded, 1 * 2 ^ 32 + 2, []) := by decide
/-- R137, R176: one character on 4 by 8 passes the check and is truncated, so pixels 28 and 31 carry the 9 of the
header. -/
theorem test_stegenc_header : (pixelsAfter (.stegenc [65]) 32 grid48).map (fun l => l.drop 27) =
    some ([0, 1, 0, 0, 1].map some) := by decide
/-- Section 9, P6: a grid that never carried a frame. -/
theorem test_stegdec_foreign_grid : answer .stegdec (grid 7 10 [0, 2, 4, 6, 8, 10, 12, 14, 16, 18, 20, 22, 24, 26, 28,
    30, 32, 34, 36, 38, 40, 42, 44, 46, 48, 50, 52, 55, 57, 59, 61, 63, 65, 67, 69, 71, 73, 75, 77, 79, 81, 82, 84, 86,
    88, 90, 92, 94, 96, 98, 101, 102, 104, 106, 108, 110, 112, 114, 116, 119, 120, 123, 125, 200, 200, 200, 200, 200,
    200, 200]) = some (.ok, 2, [325, 1]) := by decide
/-- Section 7, line 19, with 8 pixels. -/
theorem test_stegdec_no_header : answer .stegdec grid24 = some (.malformedHeader, 8 * 2 ^ 32, []) := by decide

/-- Section 8, line 11: reported before WeightTableInvalid. -/
theorem test_step_illegal : (match step (facing State.reset ⟨0xF1, 5, 0, []⟩) with
    | .next t => t.responses.map fun r => (r.status, r.val.toNat)
    | _ => []) = [(Status.illegalCommand, 0xF1)] := by decide
/-- R170. -/
theorem test_step_reset : (match step { grid24 with inputs := [.reset] } with
    | .next t => some (t.gvalid, t.wvalid, t.responses.length)
    | _ => none) = some (false, false, 0) := by decide
/-- R55 and log entry 19: GZRENC.PAD without a table stops with GZRENC's response and no digits. -/
theorem test_gzrencPad_stops : (hostGzrencPad 5 9 State.reset).map (fun (r, d, _) => (r.status, d)) =
    some (.weightTableInvalid, none) := by decide
/-- Section 9, P4 rows 2 and 4: GZRENC.PAD 2 over the table of 255. -/
theorem test_gzrencPad_pads : (hostGzrencPad 2 9 table255).map (fun (r, d, _) => (r.status, d)) =
    some (.ok, some (digits [0, 1, 0, 0, 0, 0, 0, 0, 0])) := by decide
/-- From reset a placed word runs as the next step. -/
theorem test_withFetchWord : (match step (State.reset.withFetchWord 8 0x0D) with
    | .next t => t.responses.map fun r => r.status
    | _ => []) = [Status.gridInvalid] := by decide

/-! ### Witnesses: the hypotheses of each obligation can be met together, at the boundaries where clauses meet -/

theorem grid24_loaded : grid24.GridLoaded := ⟨rfl, by decide⟩
theorem grid48_loaded : grid48.GridLoaded := ⟨rfl, by decide⟩

theorem table255_inv : table255.TableInv := fun _ => ⟨by decide, by decide, by decide⟩

theorem both_inv : both.Inv :=
  ⟨by decide, fun _ => ⟨by decide, by decide, by decide⟩, fun _ k => by simp [both, pixelCount]⟩

/-- A grid loaded with as many pixels as its dimensions say meets the invariant. -/
theorem grid_inv {h w : Dim} {pixels : List Byte} (hl : pixels.length = h.toNat * w.toNat) : (grid h w pixels).Inv :=
  ⟨Memory.wf_load _ _, fun hv => Bool.noConfusion hv, fun _ k => by simp [grid, pixelCount, hl]⟩

theorem test_witness_EncodeReadsBackDecode :
    (Command.mk 0x07#8 9 7 [0, 1]).wellFormed = true ∧
      decode ⟨0x07#8, 9, 7, [0, 1]⟩ = .ok (.unframep 9 [false, true]) := by decide

theorem test_witness_DecodeRejectsExactlyReservedWords :
    (Command.mk 0x0F#8 0 0 []).rsv = 0#4 ∧ (Command.mk 0x10#8 0 0 []).rsv ≠ 0#4 := by decide

theorem test_witness_StepRunsTheDecodedInstruction :
    (facing grid24 ⟨0x0A#8, 0, 0, []⟩).inputs = .command ⟨0x0A#8, 0, 0, []⟩ :: [] ∧
      decode ⟨0x0A#8, 0, 0, []⟩ = .ok .capq := by decide

theorem test_witness_ReservedWordRaisesIllegalCommand :
    (facing grid24 ⟨0x10#8, 0, 0, []⟩).inputs = .command ⟨0x10#8, 0, 0, []⟩ :: [] ∧
      (Command.mk 0x10#8 0 0 []).rsv ≠ 0#4 := by decide

theorem test_witness_ResetClearsTheValidFlags :
    ({ both with inputs := [.reset] } : State).inputs = .reset :: [] ∧ both.inputs = [] := ⟨rfl, rfl⟩

theorem test_witness_NothingIsReadableAfterReset :
    .weightTableInvalid ∈ mayRaise (.gzrenc 5) ∧ .gridInvalid ∈ mayRaise .stegdec := by decide

theorem test_witness_GzrencEncodesOverTheTable :
    grid24.wvalid = false ∧ table255.wvalid = true ∧ table255.TableInv ∧ 0 < (1#32).toInt :=
  ⟨rfl, rfl, table255_inv, by decide⟩

theorem test_witness_GzrdecSumsTheWeights : State.reset.wvalid = false ∧ table255.wvalid = true := ⟨rfl, rfl⟩

theorem test_witness_Txt2bitsConcatenatesSlots : 9 * ([72, 105] : List Byte).length < 2 ^ 64 := by decide

theorem test_witness_Bits2txtReadsCompleteSlots :
    ∃ v ts, exec (.bits2txt (digits [1, 1, 1, 1, 1, 1, 1, 1, 1])) State.reset = .next (State.reset.respond ⟨.ok, v, ts⟩) ∧
      ts.length < 2 ^ 64 := ⟨_, _, rfl, by decide⟩

theorem test_witness_FramePrependsTheLength :
    (∃ p : Bits, 2 ^ 32 ≤ p.length) ∧ (∃ p : Bits, p.length + 1 = 2 ^ 32) ∧ ([] : Bits).length < 2 ^ 32 :=
  ⟨⟨List.replicate (2 ^ 32) false, by rw [List.length_replicate]⟩,
    ⟨List.replicate (2 ^ 32 - 1) false, by rw [List.length_replicate]; norm_num⟩, by decide⟩

theorem test_witness_UnframehReadsTheHeader :
    (List.replicate 31 false).length < 32 ∧ 32 ≤ (List.replicate 32 false).length := by decide

theorem test_witness_LsbembWritesTheLowBits : State.reset.gvalid = false ∧ grid24.GridLoaded := ⟨rfl, grid24_loaded⟩

theorem test_witness_LsbextReadsTheLowBits :
    State.reset.gvalid = false ∧ grid24.GridLoaded ∧ pixelCount grid24 = 8 := ⟨rfl, grid24_loaded, by decide⟩

theorem test_witness_CapqAnswersBothCapacities : State.reset.gvalid = false ∧ grid24.gvalid = true := ⟨rfl, rfl⟩

theorem test_witness_CapchkComparesBytes : State.reset.gvalid = false ∧ grid24.gvalid = true ∧
    grid24.h.toNat * grid24.w.toNat / 8 < (8#32).toNat / 8 + 1 ∧
    (7#32).toNat / 8 + 1 ≤ grid24.h.toNat * grid24.w.toNat / 8 := ⟨rfl, rfl, by decide, by decide⟩

theorem test_witness_GridldReplacesTheGrid :
    2 ^ 16 ≤ (0x10000#32).toNat ∧ (0xFFFF#32).toNat < 2 ^ 16 ∧
    ([1, 2, 3] : List Byte).length ≠ (2#32).toNat * (2#32).toNat ∧
    ([1, 2, 3, 4] : List Byte).length = (2#32).toNat * (2#32).toNat ∧
    ([] : List Byte).length = (0#32).toNat * (0xFFFF#32).toNat := by decide

theorem test_witness_GridrdHandsTheGridBack : State.reset.gvalid = false ∧ grid24.GridLoaded := ⟨rfl, grid24_loaded⟩

/-- Three characters are accepted by 4 by 8 and four are not (section 7). -/
theorem test_witness_StegencEmbedsTheFramedText : State.reset.gvalid = false ∧ grid48.GridLoaded ∧
    pixelCount grid48 / 8 < 9 * ([65, 65, 65, 65] : List Byte).length / 8 + 1 ∧
    9 * ([65, 65, 65] : List Byte).length / 8 + 1 ≤ pixelCount grid48 / 8 :=
  ⟨rfl, grid48_loaded, by decide, by decide⟩

/-- 8 pixels hold no header; 32 pixels hold one; a header of 0 is within the grid and one of 1 is not. -/
theorem test_witness_StegdecDecodesTheDeclaredPayload :
    State.reset.gvalid = false ∧ grid24.gvalid = true ∧ pixelCount grid24 < 32 ∧
    (grid48.GridLoaded ∧ 32 ≤ pixelCount grid48 ∧ (List.replicate 32 false).length = pixelCount grid48 ∧
      (∀ k < pixelCount grid48, (grid48.pix.read k).map (fun p => p.getLsbD 0) = (List.replicate 32 false)[k]?) ∧
      unbin (slice (List.replicate 32 false) 0 32) ≤ pixelCount grid48 - 32) ∧
    pixelCount grid48 - 32 < unbin (slice (List.replicate 31 false ++ [true]) 0 32) :=
  ⟨rfl, rfl, by decide, ⟨grid48_loaded, by decide, by decide, by decide, by decide⟩, by decide⟩

theorem test_witness_StegdecDeclaredBeyondTheGrid :
    ∃ s : State, s.GridLoaded ∧ 32 ≤ pixelCount s ∧
      (List.replicate 31 false ++ [true] : Bits).length = pixelCount s ∧
      (∀ k < pixelCount s, (s.pix.read k).map (fun p => p.getLsbD 0) =
        (List.replicate 31 false ++ [true] : Bits)[k]?) ∧
      pixelCount s - 32 < unbin (slice (List.replicate 31 false ++ [true]) 0 32) :=
  ⟨gridDeclaring1, ⟨rfl, by decide⟩, by decide, by decide, by decide, by decide⟩

/-- An instruction of each kind of write answers a next state, and so does a reader. -/
theorem test_witness_EveryCommandIsAnsweredOnce :
    (∃ t, exec (.tribgen 7) both = .next t) ∧ (∃ t, exec (.lsbemb [true]) both = .next t) ∧
    (∃ t, exec .gridrd both = .next t) := ⟨⟨_, rfl⟩, ⟨_, rfl⟩, ⟨_, rfl⟩⟩

theorem test_witness_ExceptionsChangeNoState :
    ∃ t r, exec (.capchk 8) grid24 = .next t ∧ Answered grid24 t r ∧ r.status ≠ .ok :=
  ⟨_, _, rfl, ⟨rfl, rfl⟩, by decide⟩

theorem test_witness_OnlyListedExceptionsAreRaised :
    ∃ t r, exec (.capchk 8) grid24 = .next t ∧ Answered grid24 t r := ⟨_, _, rfl, rfl, rfl⟩

theorem test_witness_GridReadersNeedAGrid : readsGrid .stegdec = true ∧ State.reset.gvalid = false := ⟨rfl, rfl⟩

theorem test_witness_ReadersAndCodecsFrame :
    writesNothing .gridrd = true ∧ ∃ t, exec .gridrd grid24 = .next t := ⟨rfl, _, rfl⟩

theorem test_witness_TribgenFrame : ∃ t, exec (.tribgen 255) both = .next t := ⟨_, rfl⟩

theorem test_witness_GridldFrame :
    (∃ t, exec (.gridld 1 2 [7, 8]) both = .next t) ∧ (∃ t, exec (.gridld 1 2 [7]) both = .next t) ∧
    ([7] : List Byte).length ≠ (1#32).toNat * (2#32).toNat := ⟨⟨_, rfl⟩, ⟨_, rfl⟩, by decide⟩

theorem test_witness_EmbeddingFrame :
    (∃ t, exec (.lsbemb [true]) grid24 = .next t) ∧ (∃ t, exec (.stegenc [65]) grid48 = .next t) ∧
    min ([true] : Bits).length (pixelCount grid24) ≤ 1 ∧
    min (32 + 9 * ([65] : List Byte).length) (pixelCount grid48) ≤ 32 := ⟨⟨_, rfl⟩, ⟨_, rfl⟩, by decide, by decide⟩

theorem test_witness_EmbeddingChangesOnlyTheLowBit :
    (∃ t, exec (.lsbemb [true]) grid24 = .next t) ∧ grid24.pix.read 0 = some 10 := ⟨⟨_, rfl⟩, by decide⟩

theorem test_witness_ValidFlagsAreOnlySet :
    (∃ t, exec (.tribgen 7) State.reset = .next t ∧ t.wvalid ≠ State.reset.wvalid) ∧
    (∃ t, exec (.gridld 0 0 []) State.reset = .next t ∧ t.gvalid ≠ State.reset.gvalid) :=
  ⟨⟨_, rfl, by decide⟩, ⟨_, rfl, by decide⟩⟩

/-- Two different states after reset that only the unspecified contents tell apart. -/
theorem test_witness_UnspecifiedContentsAreUnobservable :
    Indistinguishable (facing State.reset ⟨0x0A#8, 0, 0, []⟩)
      { facing State.reset ⟨0x0A#8, 0, 0, []⟩ with h := 3, w := 4 } ∧
    (∃ s', step (facing State.reset ⟨0x0A#8, 0, 0, []⟩) = .next s') :=
  ⟨⟨rfl, rfl, fun h => Bool.noConfusion h, fun h => Bool.noConfusion h, rfl, rfl⟩, _, rfl⟩

theorem test_witness_TextPathIgnoresTheTable :
    .weightTableInvalid ∉ mayRaise .stegdec ∧ ∃ t, exec .stegdec grid48 = .next t := ⟨by decide, _, rfl⟩

theorem test_witness_StepKeepsTheInvariant :
    (facing both ⟨0x0D#8, 0, 0, []⟩).Inv ∧ ∃ t, step (facing both ⟨0x0D#8, 0, 0, []⟩) = .next t :=
  ⟨both_inv, _, rfl⟩

theorem test_witness_StepAlwaysGivesANextState : (facing both ⟨0x0F#8, 0, 0, []⟩).Inv := both_inv

theorem test_witness_GeneratedSequencesGrow : (6 : Int) ≤ 7 := by decide

theorem test_witness_StrippedDigitsShift :
    (0 : Int) < 2 ∧ ((greedy (2 : Int).toNat w255).takeWhile fun d => !d).length = 1 := by decide

theorem test_witness_LiteralRoundTripNeedsWeightOne :
    (7 : Int) ≤ 255 ∧ 1 ≤ 2 ∧ ((2 : Nat) : Int) ≤ 255 ∧ (greedy 2 (generate 255)).head? ≠ some true ∧
    (greedy 1 (generate 255)).head? = some true := by decide

/-- 273 is the last number below the next term of the table of 255; 325 is the last the table can hold. -/
theorem test_witness_GreedyWalkIsExactBelowTheNextTerm :
    1 ≤ 273 ∧ 273 < trib (generate 255).length ∧ ¬ 274 < trib (generate 255).length ∧ 326 ≤ 326 := by decide

theorem test_witness_PaddedDigitsRoundTrip :
    1 ≤ 273 ∧ 273 < trib (generate 255).length ∧ (0 : Int) ≤ 0 := by decide

theorem test_witness_No111HoldsPerSlotOnly : ∃ chunk, chunk ∈ chunks9 (textToGzrBits [230]) := ⟨_, List.mem_singleton.2 rfl⟩

theorem test_witness_FramesAreReadBack : (digits [1, 0, 1]).length < 2 ^ 32 := by decide

theorem test_witness_ExtractReturnsWhatWasEmbedded : grid24.GridLoaded ∧ (digits [1, 1, 0]).length < 2 ^ 32 :=
  ⟨grid24_loaded, by decide⟩

theorem test_witness_EmbeddingTwiceIsEmbeddingOnce :
    ∃ t u, exec (.lsbemb [true]) grid24 = .next t ∧ exec (.lsbemb [true]) t = .next u := ⟨_, _, rfl, rfl⟩

theorem test_witness_EmbeddedFrameLayout : grid48.GridLoaded ∧ 32 + ([] : Bits).length ≤ pixelCount grid48 :=
  ⟨grid48_loaded, by decide⟩

/-- One character needs 41 pixels. -/
theorem test_witness_EncodedTextIsDecoded :
    ∃ s : State, s.GridLoaded ∧ 32 + 9 * ([65] : List Byte).length = pixelCount s :=
  ⟨grid 41 1 (List.replicate 41 200), ⟨rfl, by decide⟩, by decide⟩

theorem test_witness_TruncatedTextIsRejectedByDecode :
    grid48.GridLoaded ∧ 9 * ([65] : List Byte).length / 8 + 1 ≤ pixelCount grid48 / 8 ∧
    pixelCount grid48 < 32 + 9 * ([65] : List Byte).length := ⟨grid48_loaded, by decide, by decide⟩

theorem test_witness_GridRoundTrip :
    (1#32).toNat < 2 ^ 16 ∧ (2#32).toNat < 2 ^ 16 ∧ ([7, 8] : List Byte).length = (1#32).toNat * (2#32).toNat ∧
    (∀ i ∈ [Instr.capq, .tribgen 7], writesGrid i = false) ∧
    ∃ t u, exec (.gridld 1 2 [7, 8]) State.reset = .next t ∧ execAll [.capq, .tribgen 7] t = .next u :=
  ⟨by decide, by decide, by decide, by decide, _, _, rfl, rfl⟩

/-- The empty text is taken by 2 by 4 and one character is refused (section 7). -/
theorem test_witness_EncodeSequenceMatchesStegenc :
    both.Inv ∧ 9 * ([] : List Byte).length < 2 ^ 32 ∧ 9 * ([65] : List Byte).length < 2 ^ 32 ∧
    (∃ r t, issue (.stegenc []) both = some (r, t) ∧ r.status = .ok) ∧
    (∃ r t, issue (.stegenc [65]) both = some (r, t) ∧ r.status = .capacityExceeded) :=
  ⟨both_inv, by decide, by decide, ⟨_, _, rfl, by decide⟩, ⟨_, _, rfl, by decide⟩⟩

/-- 8 pixels hold no header; 32 pixels that spell 0 decode; 32 pixels that spell 1 declare more than there is. -/
theorem test_witness_DecodeSequenceMatchesStegdec :
    (both.Inv ∧ pixelCount both < 32 ∧ ∃ r t, issue .stegdec both = some (r, t) ∧ r.status = .malformedHeader) ∧
    (grid48.Inv ∧ 32 ≤ pixelCount grid48 ∧ ∃ r t, issue .stegdec grid48 = some (r, t) ∧ r.status = .ok) ∧
    (gridDeclaring1.Inv ∧ 32 ≤ pixelCount gridDeclaring1 ∧
      ∃ r t, issue .stegdec gridDeclaring1 = some (r, t) ∧ r.status = .malformedHeader) :=
  ⟨⟨both_inv, by decide, _, _, rfl, by decide⟩, ⟨grid_inv (by decide), by decide, _, _, rfl, by decide⟩,
    ⟨grid_inv (by decide), by decide, _, _, rfl, by decide⟩⟩

theorem test_witness_PaddedEncodingRoundTripsOnTheMachine :
    ∃ r t, issue (.tribgen 255) State.reset = some (r, t) ∧ 0 < (2#32).toInt ∧
      (2#32).toInt < (trib r.val.toNat : Int) := ⟨_, _, rfl, by decide, by decide⟩

end Sys2Proof.Tests
end

/-! SUPPORT. The statements about the state: the step, the frames, the invariant, and what cannot be observed. -/

namespace Sys2Proof.Machine

/-! ### One step, by what the host presents -/

theorem step_idle {s : State} (h : s.inputs = []) : step s = .next s := by
  simp [step, nextInput, h]

theorem step_reset {s : State} {rest : List HostInput} (h : s.inputs = .reset :: rest) :
    step s = .next s.accept.applyReset := by
  simp [step, nextInput, h]

theorem step_reserved {s : State} {c : Command} {rest : List HostInput} {w : BitVec 8}
    (h : s.inputs = .command c :: rest) (hd : decode c = .error (.reservedBits w)) :
    step s = raiseIllegalCommand w s.accept := by
  simp [step, nextInput, h, hd]

theorem step_exec {s : State} {c : Command} {rest : List HostInput} {i : Instr}
    (h : s.inputs = .command c :: rest) (hd : decode c = .ok i) : step s = exec i s.accept := by
  simp [step, nextInput, h, hd]

/-- What a step can meet: no input, the reset line, a word with a reserved bit, or a command that decodes. -/
theorem inputs_cases (inputs : List HostInput) :
    inputs = [] ∨ (∃ rest, inputs = .reset :: rest) ∨
    (∃ c rest w, inputs = .command c :: rest ∧ decode c = .error (.reservedBits w)) ∨
    ∃ c rest i, inputs = .command c :: rest ∧ decode c = .ok i := by
  match inputs with
  | [] => exact .inl rfl
  | .reset :: rest => exact .inr (.inl ⟨rest, rfl⟩)
  | .command c :: rest =>
    cases hd : decode c with
    | error e => obtain ⟨w⟩ := e; exact .inr (.inr (.inl ⟨c, rest, w, rfl, hd⟩))
    | ok i => exact .inr (.inr (.inr ⟨c, rest, i, rfl, hd⟩))

/-- Settles O6: taking the command from the host leaves the rest of its inputs. -/
theorem stepRunsTheDecodedInstruction : Obligations.StepRunsTheDecodedInstruction := by
  intro s c rest i h hd
  rw [step_exec h hd, State.accept, h, List.tail_cons]

/-! ### The table TRIBGEN makes -/

/-- The sequence is the first terms of the recurrence, up to the last one the threshold allows (R60, R63). -/
theorem generate_eq_tribPrefix (threshold : Int) :
    ∃ n, 3 ≤ n ∧ generate threshold = tribPrefix n ∧ threshold < trib n ∧
      ∀ i < n, 3 ≤ i → (trib i : Int) ≤ threshold := by
  have h4 : trib (0 + 2) = 4 := rfl
  obtain ⟨k, hk, hgt, hle⟩ := growTerms_eq threshold.toNat threshold 0 (by omega)
  rw [Nat.zero_add] at hgt
  refine ⟨3 + k, by omega, ?_, hgt, fun i hi h3 => ?_⟩
  · rw [generate, tribPrefix, List.range_add, List.map_append, List.map_map]
    exact congrArg ([1, 2, 4] ++ ·) hk
  · have := hle (i - 3) (by omega)
    rwa [show 0 + 3 + (i - 3) = i by omega] at this

/-- No threshold of 32 bits gives more terms than there are registers, or a term that does not fit one (R61, R63). -/
theorem generate_toInt_fits (a : Word) :
    ∃ n, 3 ≤ n ∧ n ≤ Config.weightRegisters ∧ generate a.toInt = tribPrefix n ∧ ∀ x ∈ tribPrefix n, x < 2 ^ 32 := by
  obtain ⟨n, h3, hgen, -, hle⟩ := generate_eq_tribPrefix a.toInt
  have hmax : a.toInt < 2 ^ 31 := BitVec.toInt_lt
  have hover : 2 ^ 31 ≤ trib 36 := by decide
  refine ⟨n, h3, ?_, hgen, fun x hx => ?_⟩
  · by_contra hn
    have := hle 36 (by simpa using hn) (by omega)
    omega
  · obtain ⟨i, hi, rfl⟩ := mem_tribPrefix hx
    by_cases hi3 : 3 ≤ i
    · have := hle i hi hi3
      omega
    · have : trib i ≤ trib 3 := trib_strictMono.monotone (by omega)
      have h7 : trib 3 = 7 := rfl
      omega

/-- The table a TRIBGEN leaves does not depend on the free values above it. -/
theorem tableWeights_setTable_generate (s : State) (a : Word) :
    tableWeights (s.setTable (generate a.toInt)) = generate a.toInt := by
  obtain ⟨n, -, hn, hgen, hfit⟩ := generate_toInt_fits a
  rw [hgen]
  exact tableWeights_setTable s (by simpa using hn) hfit

/-! ### Frames -/

theorem sameBlock_respond (s : State) (r : Response) : SameBlock s (s.respond r) :=
  ⟨⟨rfl, rfl, rfl⟩, ⟨rfl, rfl, rfl⟩, rfl⟩

theorem length_frame (payload : Bits) : (frame payload).length = 32 + payload.length := by
  simp [frame]

/-- An instruction of the reading kind writes nothing. -/
theorem Writes.eq_self {s u : State} {i : Instr} (h : Writes s i u) (hn : writesNothing i = true) : u = s := by
  cases h with
  | nothing _ => rfl
  | table _ | embedded _ _ | encoded _ _ | loaded _ _ _ => cases hn

/-- An instruction leaves the block as it is, or is one of the four that write and has written. -/
theorem exec_sameBlock_or_writes {i : Instr} {s t : State} (h : exec i s = .next t) :
    SameBlock s t ∨ writesNothing i = false ∧ ∃ u r, Writes s i u ∧ t = u.respond r := by
  obtain ⟨cause, info, -, rfl⟩ | ⟨val, ts, u, hw, rfl⟩ := exec_eq_next h
  · exact .inl (sameBlock_respond s _)
  · cases hn : writesNothing i with
    | true => rw [hw.eq_self hn]; exact .inl (sameBlock_respond s _)
    | false => exact .inr ⟨rfl, _, _, hw, rfl⟩

/-- Settles O30: an instruction of the reading kind leaves the whole block as it is. -/
theorem readersAndCodecsFrame : Obligations.ReadersAndCodecsFrame := by
  intro i s t hn h
  obtain ⟨htab, hregs, hpix⟩ | ⟨hw, -⟩ := exec_sameBlock_or_writes h
  · exact ⟨htab, hregs, fun k => by rw [hpix]⟩
  · rw [hn] at hw; cases hw

/-- Settles O31: the writes of TRIBGEN are those of `setTable`. -/
theorem tribgenFrame : Obligations.TribgenFrame := by
  intro a s t h
  obtain ⟨-, hregs, hpix⟩ | ⟨hn, u, r, hw, rfl⟩ := exec_sameBlock_or_writes h
  · exact ⟨hregs, fun k => by rw [hpix]⟩
  · cases hw with
    | nothing hn' => cases hn'
    | table a => exact ⟨⟨rfl, rfl, rfl⟩, fun k => rfl⟩

/-- Settles O32: GRIDLD writes the grid, and only when no dimension is over 16 bits and the stream has the length. -/
theorem gridldFrame : Obligations.GridldFrame := by
  intro a b px s t h
  obtain ⟨htab, hregs, hpix⟩ | ⟨hn, u, r, hw, rfl⟩ := exec_sameBlock_or_writes h
  · exact ⟨htab, fun _ => ⟨hregs, fun k => by rw [hpix]⟩⟩
  · cases hw with
    | nothing hn' => cases hn'
    | loaded ha hb hl => exact ⟨⟨rfl, rfl, rfl⟩, fun hbad => by omega⟩

/-- A pixel beyond the bits that are embedded is not touched. -/
theorem read_embedGrid_of_le {f : Bits} {s : State} {m : Memory} (h : embedGrid f s = some m) {k : Nat}
    (hk : min f.length (pixelCount s) ≤ k) : m.read k = s.pix.read k := by
  rw [read_embedGrid h, if_neg (by omega)]

/-- Settles O33: LSBEMB and STEGENC write the pixels their bits cover; the frame of a text has 32 + 9 * length bits. -/
theorem embeddingFrame : Obligations.EmbeddingFrame := by
  refine ⟨fun f s t h => ?_, fun text s t h => ?_⟩
  all_goals obtain ⟨htab, hregs, hpix⟩ | ⟨hn, u, r, hw, rfl⟩ := exec_sameBlock_or_writes h
  · exact ⟨htab, hregs, fun k _ => by rw [hpix]⟩
  · cases hw with
    | nothing hn' => cases hn'
    | embedded _ hm => exact ⟨⟨rfl, rfl, rfl⟩, ⟨rfl, rfl, rfl⟩, fun k hk => read_embedGrid_of_le hm hk⟩
  · exact ⟨htab, hregs, fun k _ => by rw [hpix]⟩
  · cases hw with
    | nothing hn' => cases hn'
    | encoded _ hm =>
      refine ⟨⟨rfl, rfl, rfl⟩, ⟨rfl, rfl, rfl⟩, fun k hk => read_embedGrid_of_le hm ?_⟩
      rwa [length_frame, length_textToGzrBits]

/-- Settles O35: of the four that write, TRIBGEN sets the one flag, GRIDLD the other, and the embedders neither. -/
theorem validFlagsAreOnlySet : Obligations.ValidFlagsAreOnlySet := by
  intro i s t h
  obtain ⟨⟨-, -, hwv⟩, ⟨-, -, hgv⟩, -⟩ | ⟨-, u, r, hw, rfl⟩ := exec_sameBlock_or_writes h
  · exact ⟨hwv.trans, hgv.trans, fun hne => (hne hwv).elim, fun hne => (hne hgv).elim⟩
  · cases hw with
    | nothing _ | embedded _ _ | encoded _ _ =>
      exact ⟨id, id, fun hne => (hne rfl).elim, fun hne => (hne rfl).elim⟩
    | table a => exact ⟨fun _ => rfl, id, fun _ => ⟨a, rfl⟩, fun hne => (hne rfl).elim⟩
    | loaded _ _ _ => exact ⟨id, fun _ => rfl, fun hne => (hne rfl).elim, fun _ => ⟨_, _, _, rfl⟩⟩

/-! ### The invariant -/

@[simp] theorem State.inv_respond (s : State) (r : Response) : (s.respond r).Inv ↔ s.Inv := Iff.rfl

@[simp] theorem State.inv_accept (s : State) : s.accept.Inv ↔ s.Inv := Iff.rfl

/-- After the reset line no flag vouches for anything (R170). -/
theorem State.inv_applyReset (s : State) : s.applyReset.Inv :=
  ⟨.nil, fun hv => Bool.noConfusion hv, fun hv => Bool.noConfusion hv⟩

/-- TRIBGEN leaves a table of 3 to 36 terms. -/
theorem State.Inv.setTable {s : State} (h : s.Inv) (a : Word) : (s.setTable (generate a.toInt)).Inv := by
  obtain ⟨hwf, -, hgrid⟩ := h
  refine ⟨hwf, fun _ => ?_, hgrid⟩
  obtain ⟨n, h3, h36, hgen, -⟩ := generate_toInt_fits a
  have hlen : (BitVec.ofNat 6 (generate a.toInt).length).toNat = n := by
    rw [hgen, length_tribPrefix, BitVec.toNat_ofNat]
    exact Nat.mod_eq_of_lt (by unfold Config.weightRegisters at h36; omega)
  rw [tableWeights_setTable_generate, State.setTable_wlen, hlen]
  exact ⟨h3, h36, hgen⟩

/-- An embedder keeps the canonical form and the extent of `PIX`. -/
theorem State.Inv.setPix {s : State} (h : s.Inv) {f : Bits} {m : Memory} (hm : embedGrid f s = some m) :
    (s.setPix m).Inv := by
  obtain ⟨hwf, htab, hgrid⟩ := h
  refine ⟨wf_embedGrid hwf hm, htab, fun hv k => ?_⟩
  rw [State.setPix_pix, isSome_read_embedGrid hm]
  exact hgrid hv k

/-- GRIDLD leaves a grid of exactly `H*W` pixels. -/
theorem State.Inv.setGrid {s : State} (h : s.Inv) {a b : Dim} {px : List Byte}
    (hl : px.length = a.toNat * b.toNat) : (s.setGrid a b px).Inv := by
  obtain ⟨-, htab, -⟩ := h
  refine ⟨Memory.wf_load px 0, htab, fun _ k => ?_⟩
  rw [State.setGrid_pix, Memory.read_load_zero]
  simp [pixelCount, hl]

theorem Writes.inv {s u : State} {i : Instr} (hw : Writes s i u) (h : s.Inv) : u.Inv := by
  cases hw with
  | nothing _ => exact h
  | table a => exact h.setTable a
  | embedded _ hm => exact h.setPix hm
  | encoded _ hm => exact h.setPix hm
  | loaded ha hb hl => exact h.setGrid (by rw [hl, dimField_toNat ha, dimField_toNat hb])

/-- Every instruction keeps the invariant. -/
theorem exec_inv {i : Instr} {s t : State} (h : s.Inv) (ht : exec i s = .next t) : t.Inv := by
  obtain ⟨cause, info, -, rfl⟩ | ⟨val, ts, u, hw, rfl⟩ := exec_eq_next ht
  · exact (State.inv_respond s _).2 h
  · exact (State.inv_respond u _).2 (hw.inv h)

/-- Settles O39: by what the host presents; an instruction keeps the invariant by `exec_inv`. -/
theorem stepKeepsTheInvariant : Obligations.StepKeepsTheInvariant := by
  intro s t h ht
  have haccept : s.accept.Inv := (State.inv_accept s).2 h
  obtain hi | ⟨rest, hi⟩ | ⟨c, rest, w, hi, hd⟩ | ⟨c, rest, i, hi, hd⟩ := inputs_cases s.inputs
  · cases (step_idle hi).symm.trans ht
    exact h
  · cases (step_reset hi).symm.trans ht
    exact State.inv_applyReset _
  · cases (step_reserved hi hd).symm.trans ht
    exact (State.inv_respond s.accept _).2 haccept
  · exact exec_inv haccept ((step_exec hi hd).symm.trans ht)

/-! ### Every step gives a next state -/

/-- A meaning or a step ends in a next state. -/
def Answers (x : Result) : Prop := ∃ t, x = .next t

theorem answers_succeed (val : Val) (ts : List Word) (s : State) : Answers (succeed val ts s) := ⟨_, rfl⟩

theorem answers_raise (cause : Status) (info : Val) (s : State) : Answers (raise cause info s) := ⟨_, rfl⟩

theorem answers_ite {c : Prop} [Decidable c] {x y : Result} (hx : Answers x) (hy : Answers y) :
    Answers (if c then x else y) := by
  split
  · exact hx
  · exact hy

theorem answers_requireTable {s : State} {go : Result} (h : Answers go) : Answers (requireTable s go) := by
  cases hv : s.wvalid
  · exact ⟨_, requireTable_invalid hv go⟩
  · rwa [requireTable_valid hv]

theorem answers_requireGrid {s : State} {go : Result} (h : s.gvalid = true → Answers go) :
    Answers (requireGrid s go) := by
  cases hv : s.gvalid
  · exact ⟨_, requireGrid_invalid hv go⟩
  · rw [requireGrid_valid hv]; exact h hv

theorem answers_checkCapacity {n : Nat} {s : State} {go : Result} (h : Answers go) :
    Answers (checkCapacity n s go) :=
  answers_ite (answers_raise _ _ s) h

theorem answers_withPixels {α : Type} {read : Option α} {go : α → Result} (hr : ∃ x, read = some x)
    (h : ∀ x, Answers (go x)) : Answers (withPixels read go) := by
  obtain ⟨x, rfl⟩ := hr
  exact h x

/-- An instruction gives a next state wherever a grid that is said to be loaded has its pixels. -/
theorem exec_answers (i : Instr) {s : State}
    (h : s.gvalid = true → ∀ k < pixelCount s, (s.pix.read k).isSome = true) : Answers (exec i s) := by
  cases i with
  | tribgen _ | txt2bits _ | bits2txt _ | unframep _ _ => exact answers_succeed _ _ _
  | gzrenc _ | gzrdec _ => exact answers_requireTable (answers_succeed _ _ _)
  | frame _ | unframeh _ => exact answers_ite (answers_raise _ _ _) (answers_succeed _ _ _)
  | gridld _ _ _ =>
    exact answers_ite (answers_raise _ _ _) (answers_ite (answers_raise _ _ _) (answers_succeed _ _ _))
  | capq => exact answers_requireGrid fun _ => answers_succeed _ _ _
  | capchk _ => exact answers_requireGrid fun _ => answers_checkCapacity (answers_succeed _ _ _)
  | lsbemb framed =>
    exact answers_requireGrid fun hv => answers_withPixels (embedGrid_isSome (h hv)) fun _ => answers_succeed _ _ _
  | lsbext start length =>
    exact answers_requireGrid fun hv => answers_withPixels (extractGrid_isSome (h hv)) fun _ => answers_succeed _ _ _
  | gridrd =>
    refine answers_requireGrid fun hv => answers_withPixels (Memory.readSpan_isSome fun k hk => ?_) fun _ =>
      answers_succeed _ _ _
    rw [Nat.zero_add]
    exact h hv k hk
  | stegenc text =>
    exact answers_requireGrid fun hv => answers_checkCapacity <|
      answers_withPixels (embedGrid_isSome (h hv)) fun _ => answers_succeed _ _ _
  | stegdec =>
    exact answers_requireGrid fun hv => answers_ite (answers_raise _ _ _) <|
      answers_withPixels (extractGrid_isSome (h hv)) fun _ => answers_ite (answers_raise _ _ _) <|
        answers_withPixels (extractGrid_isSome (h hv)) fun _ => answers_succeed _ _ _

/-- Settles O40: by what the host presents; the invariant gives an instruction the pixels it reads. -/
theorem stepAlwaysGivesANextState : Obligations.StepAlwaysGivesANextState := by
  intro s ⟨_, _, hgrid⟩
  obtain hi | ⟨rest, hi⟩ | ⟨c, rest, w, hi, hd⟩ | ⟨c, rest, i, hi, hd⟩ := inputs_cases s.inputs
  · exact ⟨_, step_idle hi⟩
  · exact ⟨_, step_reset hi⟩
  · exact ⟨_, step_reserved hi hd⟩
  · rw [step_exec hi hd]
    exact exec_answers i (s := s.accept) fun hv k hk => (hgrid hv k).2 hk

/-! ### What cannot be observed -/

/-- The two states agree on the host's side, on the grid where the flag vouches for it or `grid` asks for it, and, where
`table` asks for it, on the weight table as far as its flag vouches for it. -/
structure Alike (table grid : Prop) (s t : State) : Prop where
  wvalid : table → t.wvalid = s.wvalid
  weights : table → s.wvalid = true → t.wlen = s.wlen ∧ tableWeights t = tableWeights s
  gvalid : t.gvalid = s.gvalid
  gridItems : grid ∨ s.gvalid = true → t.h = s.h ∧ t.w = s.w ∧ t.pix = s.pix
  inputs : t.inputs = s.inputs
  responses : t.responses = s.responses

theorem indistinguishable_iff_alike (s t : State) : Indistinguishable s t ↔ Alike True False s t := by
  constructor
  · rintro ⟨hwv, hgv, hweights, hgrid, hin, hresp⟩
    exact ⟨fun _ => hwv, fun _ => hweights, hgv, fun hg => hgrid (hg.resolve_left id), hin, hresp⟩
  · rintro ⟨hwv, hweights, hgv, hgrid, hin, hresp⟩
    exact ⟨hwv trivial, hgv, hweights trivial, fun hg => hgrid (.inr hg), hin, hresp⟩

/-- Where `x` gives a next state, `y` gives a related one. -/
def Follows (R : State → State → Prop) (x y : Result) : Prop :=
  ∀ s', x = .next s' → ∃ t', y = .next t' ∧ R s' t'

theorem follows_next {R : State → State → Prop} {s t : State} (h : R s t) : Follows R (.next s) (.next t) := by
  rintro _ ⟨⟩
  exact ⟨t, rfl, h⟩

theorem follows_ite {R : State → State → Prop} {c : Prop} [Decidable c] {x y x' y' : Result}
    (hx : Follows R x x') (hy : Follows R y y') : Follows R (if c then x else y) (if c then x' else y') := by
  split
  · exact hx
  · exact hy

theorem follows_withPixels {α : Type} {R : State → State → Prop} {read : Option α} {f g : α → Result}
    (h : ∀ x, Follows R (f x) (g x)) : Follows R (withPixels read f) (withPixels read g) := by
  intro s' hs'
  obtain ⟨x, rfl, hx⟩ := withPixels_eq_next hs'
  exact h x s' hx

section
variable {table grid : Prop} {s t : State}

/-! The state writes keep two states alike. -/

theorem Alike.respond (h : Alike table grid s t) (r : Response) :
    Alike table grid (s.respond r) (t.respond r) :=
  { h with responses := congrArg (· ++ [r]) h.responses }

theorem Alike.accept (h : Alike table grid s t) : Alike table grid s.accept t.accept :=
  { h with inputs := congrArg List.tail h.inputs }

theorem Alike.applyReset (h : Alike table grid s t) : Alike table grid s.applyReset t.applyReset :=
  ⟨fun _ => rfl, fun _ _ => ⟨rfl, rfl⟩, rfl, fun _ => ⟨rfl, rfl, rfl⟩, h.inputs, h.responses⟩

theorem Alike.setTable (h : Alike table grid s t) (a : Word) :
    Alike table grid (s.setTable (generate a.toInt)) (t.setTable (generate a.toInt)) :=
  { h with
    wvalid := fun _ => rfl
    weights := fun _ _ => ⟨rfl, by rw [tableWeights_setTable_generate, tableWeights_setTable_generate]⟩ }

theorem Alike.setGrid (h : Alike table grid s t) (a b : Dim) (px : List Byte) :
    Alike table grid (s.setGrid a b px) (t.setGrid a b px) :=
  { h with gvalid := rfl, gridItems := fun _ => ⟨rfl, rfl, rfl⟩ }

theorem Alike.setPix (h : Alike table grid s t) (m : Memory) : Alike table grid (s.setPix m) (t.setPix m) :=
  { h with
    gridItems := fun hg => by
      obtain ⟨hh, hw, -⟩ := h.gridItems hg
      exact ⟨hh, hw, rfl⟩ }

/-! The shared operations answer alike. -/

theorem Alike.succeed (h : Alike table grid s t) (val : Val) (ts : List Word) :
    Follows (Alike table grid) (succeed val ts s) (succeed val ts t) :=
  follows_next (h.respond _)

theorem Alike.raise (h : Alike table grid s t) (cause : Status) (info : Val) :
    Follows (Alike table grid) (raise cause info s) (raise cause info t) :=
  follows_next (h.respond _)

theorem Alike.requireTable (h : Alike table grid s t) (ht : table) {x y : Result}
    (go : s.wvalid = true → Follows (Alike table grid) x y) :
    Follows (Alike table grid) (requireTable s x) (requireTable t y) := by
  have hwv := h.wvalid ht
  cases hv : s.wvalid
  · rw [requireTable_invalid hv, requireTable_invalid (hwv.trans hv)]
    exact follows_next (h.respond _)
  · rw [requireTable_valid hv, requireTable_valid (hwv.trans hv)]
    exact go hv

theorem Alike.requireGrid (h : Alike table grid s t) {x y : Result}
    (go : s.gvalid = true → Follows (Alike table grid) x y) :
    Follows (Alike table grid) (requireGrid s x) (requireGrid t y) := by
  cases hv : s.gvalid
  · rw [requireGrid_invalid hv, requireGrid_invalid (h.gvalid.trans hv)]
    exact follows_next (h.respond _)
  · rw [requireGrid_valid hv, requireGrid_valid (h.gvalid.trans hv)]
    exact go hv

theorem Alike.pixelCount_eq (h : Alike table grid s t) (hv : s.gvalid = true) : pixelCount t = pixelCount s := by
  obtain ⟨hh, hw, -⟩ := h.gridItems (.inr hv)
  rw [pixelCount, pixelCount, hh, hw]

theorem Alike.embedGrid_eq (h : Alike table grid s t) (hv : s.gvalid = true) (f : Bits) :
    embedGrid f t = embedGrid f s := by
  obtain ⟨-, -, hp⟩ := h.gridItems (.inr hv)
  rw [embedGrid, embedGrid, h.pixelCount_eq hv, hp]

theorem Alike.extractGrid_eq (h : Alike table grid s t) (hv : s.gvalid = true) (start length : Nat) :
    extractGrid start length t = extractGrid start length s := by
  obtain ⟨-, -, hp⟩ := h.gridItems (.inr hv)
  rw [extractGrid, extractGrid, h.pixelCount_eq hv, hp]

theorem Alike.checkCapacity (h : Alike table grid s t) (hv : s.gvalid = true) (n : Nat) {x y : Result}
    (go : Follows (Alike table grid) x y) :
    Follows (Alike table grid) (checkCapacity n s x) (checkCapacity n t y) := by
  rw [Machine.checkCapacity, Machine.checkCapacity, h.pixelCount_eq hv]
  exact follows_ite (h.raise _ _) go

/-- An instruction answers alike in alike states, when the table is compared if the instruction reads it. -/
theorem Alike.exec (h : Alike table grid s t) (i : Instr) (ht : .weightTableInvalid ∈ mayRaise i → table) :
    Follows (Alike table grid) (exec i s) (exec i t) := by
  cases i with
  | tribgen a => exact (h.setTable a).succeed _ _
  | txt2bits _ | bits2txt _ | unframep _ _ => exact h.succeed _ _
  | gzrenc _ | gzrdec _ =>
    have ht := ht (by simp [mayRaise])
    refine h.requireTable ht fun hv => ?_
    rw [(h.weights ht hv).2]
    exact h.succeed _ _
  | frame _ | unframeh _ => exact follows_ite (h.raise _ _) (h.succeed _ _)
  | gridld _ _ px =>
    exact follows_ite (h.raise _ _) (follows_ite (h.raise _ _) ((h.setGrid _ _ px).succeed _ _))
  | capq =>
    refine h.requireGrid fun hv => ?_
    rw [h.pixelCount_eq hv]
    exact h.succeed _ _
  | capchk n => exact h.requireGrid fun hv => h.checkCapacity hv _ (h.succeed _ _)
  | lsbemb f =>
    refine h.requireGrid fun hv => ?_
    rw [h.embedGrid_eq hv, h.pixelCount_eq hv]
    exact follows_withPixels fun m => (h.setPix m).succeed _ _
  | lsbext start length =>
    refine h.requireGrid fun hv => ?_
    rw [h.extractGrid_eq hv]
    exact follows_withPixels fun _ => h.succeed _ _
  | gridrd =>
    refine h.requireGrid fun hv => ?_
    obtain ⟨hh, hw, hp⟩ := h.gridItems (.inr hv)
    rw [h.pixelCount_eq hv, hh, hw, hp]
    exact follows_withPixels fun _ => h.succeed _ _
  | stegenc text =>
    refine h.requireGrid fun hv => h.checkCapacity hv _ ?_
    simp only [h.embedGrid_eq hv]
    exact follows_withPixels fun m => (h.setPix m).succeed _ _
  | stegdec =>
    refine h.requireGrid fun hv => ?_
    simp only [h.pixelCount_eq hv, h.extractGrid_eq hv]
    exact follows_ite (h.raise _ _) <| follows_withPixels fun _ =>
      follows_ite (h.raise _ _) <| follows_withPixels fun _ => h.succeed _ _

/-- Two alike states that also compare the table step alike, whatever the host presents. -/
theorem Alike.step (h : Alike True grid s t) : Follows (Alike True grid) (step s) (step t) := by
  have ht := h.inputs
  obtain hi | ⟨rest, hi⟩ | ⟨c, rest, w, hi, hd⟩ | ⟨c, rest, i, hi, hd⟩ := inputs_cases s.inputs
  all_goals rw [hi] at ht
  · rw [step_idle hi, step_idle ht]
    exact follows_next h
  · rw [step_reset hi, step_reset ht]
    exact follows_next h.accept.applyReset
  · rw [step_reserved hi hd, step_reserved ht hd]
    exact h.accept.raise _ _
  · rw [step_exec hi hd, step_exec ht hd]
    exact h.accept.exec i fun _ => trivial

end

/-- Settles O36: no operation reads more than the flags vouch for, and no write makes alike states differ. -/
theorem unspecifiedContentsAreUnobservable : Obligations.UnspecifiedContentsAreUnobservable := by
  intro s t s' h hs'
  rw [indistinguishable_iff_alike] at h
  obtain ⟨t', ht', h'⟩ := h.step s' hs'
  exact ⟨t', ht', (indistinguishable_iff_alike s' t').2 h'⟩

/-- Settles O37: an instruction that may not raise WeightTableInvalid answers alike without the table compared. -/
theorem textPathIgnoresTheTable : Obligations.TextPathIgnoresTheTable := by
  intro i s t wt wlen wvalid hi hs
  have h : Alike False True s { s with wt := wt, wlen := wlen, wvalid := wvalid } :=
    ⟨False.elim, False.elim, rfl, fun _ => ⟨rfl, rfl, rfl⟩, rfl, rfl⟩
  obtain ⟨t', ht', h'⟩ := h.exec i hi t hs
  obtain ⟨hh, hw, hp⟩ := h'.gridItems (.inl trivial)
  exact ⟨t', ht', h'.responses, ⟨hh, hw, h'.gvalid⟩, hp⟩

end Sys2Proof.Machine

/-! SUPPORT. The statements about the encoding: decode and encode are inverse, and which words decode. -/

namespace Sys2Proof

/-! ### The command word -/

/-- The reserved field is 0 exactly for the sixteen words of the operation map (R42, R43). -/
theorem Command.rsv_eq_zero_iff (c : Command) : c.rsv = 0#4 ↔ c.word.toNat < 16 := by
  have := c.word.isLt
  rw [← BitVec.toNat_inj]
  simp only [Command.rsv, BitVec.extractLsb'_toNat, Nat.shiftRight_eq_div_pow, BitVec.toNat_ofNat]
  omega

theorem exists_row_of_lt {w : BitVec 8} (h : w.toNat < 16) : ∃ op : Fin 16, w = BitVec.ofNat 8 op :=
  ⟨⟨w.toNat, h⟩, by simp⟩

/-- A word outside the operation map is rejected with itself (R51). -/
theorem decode_of_reserved {c : Command} (h : 16 ≤ c.word.toNat) : decode c = .error (.reservedBits c.word) := by
  unfold decode
  split
  case h_17 => rfl
  all_goals omega

theorem decode_ok_of_lt {c : Command} (h : c.word.toNat < 16) : ∃ i, decode c = .ok i := by
  obtain ⟨w, a, b, s⟩ := c
  obtain ⟨op, rfl⟩ := exists_row_of_lt h
  fin_cases op <;> exact ⟨_, rfl⟩

/-- A command that decodes has one of the sixteen words. -/
theorem word_lt_of_decode_ok {c : Command} {i : Instr} (h : decode c = .ok i) : c.word.toNat < 16 := by
  by_contra hw
  rw [decode_of_reserved (Nat.le_of_not_lt hw)] at h
  cases h

/-! ### Bit streams -/

@[simp] theorem bitsOfBeats_beatsOfBits (bits : Bits) : bitsOfBeats (beatsOfBits bits) = bits := by
  rw [bitsOfBeats, beatsOfBits, List.map_map]
  refine List.map_id'' (fun d => ?_) bits
  cases d <;> rfl

/-- A bit stream with elements in range is read without loss (R45). -/
theorem beatsOfBits_bitsOfBeats {beats : List Byte} (h : ∀ e ∈ beats, e = 0#8 ∨ e = 1#8) :
    beatsOfBits (bitsOfBeats beats) = beats := by
  rw [bitsOfBeats, beatsOfBits, List.map_map]
  refine (List.map_congr_left fun e he => ?_).trans (List.map_id beats)
  rcases h e he with rfl | rfl <;> rfl

theorem mem_beatsOfBits {bits : Bits} {e : Byte} (h : e ∈ beatsOfBits bits) : e = 0#8 ∨ e = 1#8 := by
  obtain ⟨d, -, rfl⟩ := List.mem_map.1 h
  cases d
  · exact .inl rfl
  · exact .inr rfl

theorem Command.bitsInRange_iff (c : Command) :
    c.bitsInRange = true ↔ (c.takesBits = true → ∀ e ∈ c.s, e = 0#8 ∨ e = 1#8) := by
  cases h : c.takesBits <;> simp [Command.bitsInRange, h]

/-! ### Decode and encode -/

theorem decode_encode (i : Instr) : decode (encode i) = .ok i := by
  cases i with
  | gzrdec _ | bits2txt _ | frame _ | unframeh _ | unframep _ _ | lsbemb _ => simp [decode, encode]
  | tribgen _ | gzrenc _ | txt2bits _ | lsbext _ _ | capq | capchk _ | gridld _ _ _ | gridrd | stegenc _
  | stegdec => rfl

/-- The beats of a presented bit stream are digits; the rows without a bit stream ask nothing. -/
theorem bitsInRange_encode (i : Instr) : (encode i).bitsInRange = true := by
  rw [Command.bitsInRange_iff]
  cases i with
  | gzrdec _ | bits2txt _ | frame _ | unframeh _ | unframep _ _ | lsbemb _ => exact fun _ _ he => mem_beatsOfBits he
  | tribgen _ | gzrenc _ | txt2bits _ | lsbext _ _ | capq | capchk _ | gridld _ _ _ | gridrd | stegenc _
  | stegdec => exact fun h => nomatch h

theorem reservedZero_encode (i : Instr) : (encode i).reservedZero = true := by
  rw [Command.reservedZero, beq_iff_eq, Command.rsv_eq_zero_iff]
  exact word_lt_of_decode_ok (decode_encode i)

/-- Settles O1: the beats of a bit stream are read back as its digits, every other operand travels as it is. -/
theorem decodeReadsBackEncode : Obligations.DecodeReadsBackEncode := fun i =>
  ⟨decode_encode i, by rw [Command.wellFormed, reservedZero_encode, bitsInRange_encode]; rfl⟩

/-- What a command that decodes is presented as: its canonical form, with every beat of a bit stream cut to its bit. -/
theorem encode_of_decode_ok {c : Command} {i : Instr} (h : decode c = .ok i) :
    encode i = { c.canonical with s := if c.takesBits then beatsOfBits (bitsOfBeats c.s) else c.canonical.s } := by
  obtain ⟨op, hop⟩ := exists_row_of_lt (word_lt_of_decode_ok h)
  obtain ⟨w, a, b, s⟩ := c
  obtain rfl : w = _ := hop
  fin_cases op <;> cases h <;> rfl

/-- Settles O2: nothing is cut from a bit stream in range, and that stream is one its row reads. -/
theorem encodeReadsBackDecode : Obligations.EncodeReadsBackDecode := by
  intro c i hwf h
  have hrange := (Command.bitsInRange_iff c).1 (Bool.and_eq_true_iff.1 hwf).2
  rw [encode_of_decode_ok h]
  cases hb : c.takesBits with
  | false => rfl
  | true =>
    have hs : c.canonical.s = c.s := by simp [Command.canonical, Command.usesStream, hb]
    rw [if_pos rfl, beatsOfBits_bitsOfBeats (hrange hb), ← hs]

/-- Settles O3: for each word the decoder reads the operands its row names, and no others. -/
theorem decodeIgnoresUnusedOperands : Obligations.DecodeIgnoresUnusedOperands := by
  intro c
  rcases Nat.lt_or_ge c.word.toNat 16 with hw | hw
  · obtain ⟨op, hop⟩ := exists_row_of_lt hw
    obtain ⟨w, a, b, s⟩ := c
    obtain rfl : w = _ := hop
    fin_cases op <;> rfl
  · rw [decode_of_reserved hw]
    exact decode_of_reserved (c := c.canonical) hw

/-- Settles O4: the reserved field is 0 for the words of the operation map. -/
theorem decodeRejectsExactlyReservedWords : Obligations.DecodeRejectsExactlyReservedWords := fun c =>
  ⟨fun h => decode_ok_of_lt (c.rsv_eq_zero_iff.1 h),
   fun h => decode_of_reserved (Nat.le_of_not_lt (mt c.rsv_eq_zero_iff.2 h))⟩

/-- Settles O5: each clause is one row of the operation map, evaluated. -/
theorem specCommandsDecodeAsWritten : Obligations.SpecCommandsDecodeAsWritten :=
  ⟨rfl, rfl, rfl, rfl, rfl, rfl⟩

namespace Machine

/-- Settles O26: a raise and a success each append one response, and no write touches the host's side. -/
theorem everyCommandIsAnsweredOnce : Obligations.EveryCommandIsAnsweredOnce := by
  intro i s t h
  obtain ⟨cause, info, -, rfl⟩ | ⟨val, ts, u, hw, rfl⟩ := exec_eq_next h
  · exact ⟨_, rfl, rfl⟩
  · obtain ⟨hresp, hin⟩ := hw.host_side
    exact ⟨⟨.ok, val, ts⟩, by rw [State.respond_responses, hresp], hin⟩

end Machine
end Sys2Proof

/-! SUPPORT. The statements about the host's sequences: ENCODE.SEQ against STEGENC, DECODE.SRC against STEGDEC, and
GZRENC.PAD. -/

namespace Sys2Proof.Machine

/-! ### Issuing a command -/

/-- The host gets the response of a command that succeeds, and the state its writes leave. -/
theorem issue_succeed {i : Instr} {s u : State} {val : Val} {ts : List Word} (h : exec i s = succeed val ts u) :
    issue i s = some (⟨.ok, val, ts⟩, u.respond ⟨.ok, val, ts⟩) :=
  issue_eq_some (decode_encode i) h

theorem issue_raise {i : Instr} {s : State} {cause : Status} {info : Val} (h : exec i s = raise cause info s) :
    issue i s = some (⟨cause, info, []⟩, s.respond ⟨cause, info, []⟩) :=
  issue_eq_some (decode_encode i) h

theorem whileOk_issue_succeed {i : Instr} {s u : State} {val : Val} {ts : List Word}
    (h : exec i s = succeed val ts u) (go : Response → State → HostRun) :
    whileOk (issue i s) go = go ⟨.ok, val, ts⟩ (u.respond ⟨.ok, val, ts⟩) := by
  rw [issue_succeed h, whileOk_ok rfl]

theorem whileOk_issue_raise {i : Instr} {s : State} {cause : Status} {info : Val} (h : exec i s = raise cause info s)
    (hc : cause ≠ .ok) (go : Response → State → HostRun) :
    whileOk (issue i s) go = some (⟨cause, info, []⟩, s.respond ⟨cause, info, []⟩) := by
  rw [issue_raise h, whileOk_stop hc]

/-! ### The capacity check and the fields of `val` -/

theorem checkCapacity_exceeded {n : Nat} {s : State} (h : capacityBytes (pixelCount s) < requiredBytes n)
    (go : Result) :
    checkCapacity n s go =
      raise .capacityExceeded (portPair (capacityBytes (pixelCount s)) (requiredBytes n)) s :=
  if_pos h

theorem checkCapacity_met {n : Nat} {s : State} (h : ¬ capacityBytes (pixelCount s) < requiredBytes n)
    (go : Result) : checkCapacity n s go = go :=
  if_neg h

theorem zext32_ofNat {n : Nat} (h : n < 2 ^ 32) : zext32 (BitVec.ofNat 32 n) = n := by
  rw [zext32, BitVec.toNat_ofNat, Nat.mod_eq_of_lt h]

theorem setWidth_portVal {n : Nat} (h : n < 2 ^ 32) : (portVal n).setWidth 32 = BitVec.ofNat 32 n := by
  rw [← BitVec.toNat_inj, BitVec.toNat_setWidth, portVal_toNat (by omega), BitVec.toNat_ofNat]

/-- `val[31:0]` of a pair is its low field. -/
theorem toNat_setWidth_portPair {hi lo : Nat} (hh : hi < 2 ^ 32) (hl : lo < 2 ^ 32) :
    ((portPair hi lo).setWidth 32).toNat = lo := by
  rw [BitVec.toNat_setWidth, portPair_toNat hh hl]
  omega

/-- The header's 32 digits spell a number of 32 bits (R102). -/
theorem unframeHeader_lt (framed : Bits) : unframeHeader framed < 2 ^ 32 := by
  refine (unbin_lt _).trans_le (Nat.pow_le_pow_right (by omega) ?_)
  rw [length_slice, Config.headerWidth]
  omega

/-! ### What the commands of the sequences answer -/

/-- The invariant gives a grid that is said to be loaded its pixels. -/
theorem State.Inv.gridLoaded {s : State} (h : s.Inv) (hv : s.gvalid = true) : s.GridLoaded := by
  obtain ⟨-, -, hgrid⟩ := h
  exact ⟨hv, fun k hk => (hgrid hv k).2 hk⟩

theorem exec_frame {p : Bits} (h : p.length < 2 ^ 32) (s : State) :
    exec (.frame p) s = succeed (portVal (32 + p.length)) (streamOfBits (frame p)) s :=
  if_neg (Nat.not_le_of_lt h)

theorem exec_unframeh {f : Bits} (h : 32 ≤ f.length) (s : State) :
    exec (.unframeh f) s = succeed (portVal (unframeHeader f)) [] s :=
  if_neg (Nat.not_lt_of_le h)

theorem exec_unframeh_short {f : Bits} (h : f.length < 32) (s : State) :
    exec (.unframeh f) s = raise .malformedHeader (portPair f.length 0) s :=
  if_pos h

/-- An instruction that reads the grid raises GridInvalid without one (R157). -/
theorem exec_gridInvalid {i : Instr} {s : State} (hi : readsGrid i = true) (hv : s.gvalid = false) :
    exec i s = raise .gridInvalid 0#64 s := by
  cases i with
  | lsbemb _ | lsbext _ _ | capq | capchk _ | gridrd | stegenc _ | stegdec => exact requireGrid_invalid hv _
  | tribgen _ | gzrenc _ | gzrdec _ | txt2bits _ | bits2txt _ | frame _ | unframeh _ | unframep _ _
  | gridld _ _ _ => cases hi

section
variable {s : State} (hv : s.gvalid = true)
include hv

theorem exec_capchk (a : Word) :
    exec (.capchk a) s = checkCapacity (zext32 a) s (succeed (portVal (requiredBytes (zext32 a))) [] s) :=
  requireGrid_valid hv _

theorem exec_lsbemb {f : Bits} {m : Memory} (hm : embedGrid f s = some m) :
    exec (.lsbemb f) s = succeed (portVal (min f.length (pixelCount s))) [] (s.setPix m) := by
  rw [exec, execLsbemb, requireGrid_valid hv, hm, withPixels_some]

theorem exec_lsbext (a b : Word) {out : Bits} (ho : extractGrid (zext32 a) (zext32 b) s = some out) :
    exec (.lsbext a b) s = succeed (portVal out.length) (streamOfBits out) s := by
  rw [exec, execLsbext, requireGrid_valid hv, ho, withPixels_some]

theorem exec_stegenc_exceeded {text : List Byte}
    (h : capacityBytes (pixelCount s) < requiredBytes (9 * text.length)) :
    exec (.stegenc text) s =
      raise .capacityExceeded (portPair (capacityBytes (pixelCount s)) (requiredBytes (9 * text.length))) s := by
  simp only [exec, execStegenc, requireGrid_valid hv, length_textToGzrBits, checkCapacity_exceeded h]

theorem exec_stegenc {text : List Byte} {m : Memory}
    (h : ¬ capacityBytes (pixelCount s) < requiredBytes (9 * text.length))
    (hm : embedGrid (frame (textToGzrBits text)) s = some m) :
    exec (.stegenc text) s = succeed (portVal (frame (textToGzrBits text)).length) [] (s.setPix m) := by
  simp only [exec, execStegenc, requireGrid_valid hv, length_textToGzrBits, checkCapacity_met h, hm, withPixels_some]

theorem exec_stegdec_small (h : pixelCount s < 32) :
    exec .stegdec s = raise .malformedHeader (portPair (pixelCount s) 0) s := by
  simp only [exec, execStegdec, requireGrid_valid hv, if_pos h]

theorem exec_stegdec_beyond {header : Bits} (h : 32 ≤ pixelCount s) (hh : extractGrid 0 32 s = some header)
    (hd : pixelCount s - 32 < unframeHeader header) :
    exec .stegdec s = raise .malformedHeader (portPair (pixelCount s) (unframeHeader header)) s := by
  simp only [exec, execStegdec, requireGrid_valid hv, if_neg (Nat.not_lt_of_le h), hh, withPixels_some, gt_iff_lt,
    if_pos hd]

theorem exec_stegdec {header bits : Bits} (h : 32 ≤ pixelCount s) (hh : extractGrid 0 32 s = some header)
    (hd : ¬ pixelCount s - 32 < unframeHeader header) (hb : extractGrid 32 (unframeHeader header) s = some bits) :
    exec .stegdec s = succeed (portVal (gzrBitsToText bits).length) (streamOfText (gzrBitsToText bits)) s := by
  simp only [exec, execStegdec, requireGrid_valid hv, if_neg (Nat.not_lt_of_le h), hh, hb, withPixels_some, gt_iff_lt,
    if_neg hd]

end

/-! ### ENCODE.SEQ -/

/-- TXT2BITS never raises, and what it sends is the payload: from there on CAPCHK decides. -/
theorem hostEncodeSeq_eq {text : List Byte} (h : 9 * text.length < 2 ^ 32) (s : State) :
    ∃ r, hostEncodeSeq text s =
      whileOk (issue (.capchk (BitVec.ofNat 32 (9 * text.length))) (s.respond r)) fun _ s =>
        whileOk (issue (.frame (textToGzrBits text)) s) fun r s => issue (.lsbemb (bitsOfStream r.t)) s := by
  refine ⟨⟨.ok, portVal (9 * text.length), streamOfBits (textToGzrBits text)⟩, ?_⟩
  rw [hostEncodeSeq, whileOk_issue_succeed (i := .txt2bits text) rfl]
  simp only [bitsOfStream_streamOfBits, length_textToGzrBits, if_pos h]

/-- Settles O57: without a grid and beyond the capacity CAPCHK raises what STEGENC raises; else FRAME and LSBEMB embed
the frame that STEGENC embeds. -/
theorem encodeSequenceMatchesStegenc : Obligations.EncodeSequenceMatchesStegenc := by
  intro text s t r hinv hlen h
  obtain ⟨r₁, hseq⟩ := hostEncodeSeq_eq hlen s
  rw [hseq]
  cases hv : s.gvalid
  · cases (issue_raise (exec_gridInvalid rfl hv)).symm.trans h
    exact ⟨_, _, whileOk_issue_raise (exec_gridInvalid (s := s.respond r₁) rfl hv) (by decide) _, rfl, rfl,
      fun _ => rfl⟩
  · have hchk := exec_capchk (s := s.respond r₁) hv (BitVec.ofNat 32 (9 * text.length))
    rw [zext32_ofNat hlen] at hchk
    by_cases hcap : capacityBytes (pixelCount s) < requiredBytes (9 * text.length)
    · cases (issue_raise (exec_stegenc_exceeded hv hcap)).symm.trans h
      have hraise := hchk.trans (checkCapacity_exceeded (s := s.respond r₁) hcap _)
      exact ⟨_, _, whileOk_issue_raise hraise (by decide) _, rfl, rfl, fun _ => rfl⟩
    · obtain ⟨-, hpix⟩ := hinv.gridLoaded hv
      obtain ⟨m, hm⟩ := embedGrid_isSome (f := frame (textToGzrBits text)) hpix
      cases (issue_succeed (exec_stegenc hv hcap hm)).symm.trans h
      rw [whileOk_issue_succeed (hchk.trans (checkCapacity_met (s := s.respond r₁) hcap _)),
        whileOk_issue_succeed (exec_frame (by rwa [length_textToGzrBits]) _), bitsOfStream_streamOfBits]
      refine ⟨_, _, issue_succeed (exec_lsbemb (m := m) ?_ ?_), rfl, rfl, fun hne => (hne rfl).elim⟩
      exacts [hv, hm]

/-! ### DECODE.SRC -/

/-- Without a grid the sequence stops at its first command. -/
theorem hostDecodeSrc_gridInvalid {s : State} (hv : s.gvalid = false) :
    hostDecodeSrc s = some (⟨.gridInvalid, 0#64, []⟩, s.respond ⟨.gridInvalid, 0#64, []⟩) := by
  rw [hostDecodeSrc, hostGetLen, whileOk_issue_raise (exec_gridInvalid rfl hv) (by decide), whileOk_stop (by decide)]

/-- On a grid with no room for a header the sequence stops at UNFRAMEH. -/
theorem hostDecodeSrc_small {s : State} (hs : s.GridLoaded) (h : pixelCount s < 32) :
    ∃ t, hostDecodeSrc s = some (⟨.malformedHeader, portPair (pixelCount s) 0, []⟩, t) ∧ SameBlock s t := by
  obtain ⟨hv, hpix⟩ := hs
  obtain ⟨out, ho⟩ := extractGrid_isSome (start := 0) (length := 32) hpix
  have hlen : out.length = pixelCount s := by rw [(extractGrid_eq_some.1 ho).1]; omega
  rw [← hlen] at h
  rw [hostDecodeSrc, hostGetLen, whileOk_issue_succeed (exec_lsbext hv 0#32 32#32 ho), bitsOfStream_streamOfBits,
    issue_raise (exec_unframeh_short h _), whileOk_stop (r := ⟨.malformedHeader, _, []⟩) (fun hc => nomatch hc), hlen]
  exact ⟨_, rfl, ⟨rfl, rfl, rfl⟩, ⟨rfl, rfl, rfl⟩, rfl⟩

/-- With a header on the grid the sequence ends with the text of the bits that the declared length selects, clipped or
not: no command in it compares that length with the grid. -/
theorem hostDecodeSrc_eq {s : State} {header bits : Bits} (hv : s.gvalid = true) (h : 32 ≤ pixelCount s)
    (hh : extractGrid 0 32 s = some header) (hb : extractGrid 32 (unframeHeader header) s = some bits) :
    ∃ t, hostDecodeSrc s =
        some (⟨.ok, portVal (gzrBitsToText bits).length, streamOfText (gzrBitsToText bits)⟩, t) ∧ SameBlock s t := by
  have hlen : 32 ≤ header.length := by rw [(extractGrid_eq_some.1 hh).1]; omega
  have hdecl := unframeHeader_lt header
  rw [hostDecodeSrc, hostGetLen, whileOk_issue_succeed (exec_lsbext hv 0#32 32#32 hh), bitsOfStream_streamOfBits,
    whileOk_issue_succeed (exec_unframeh hlen _), setWidth_portVal hdecl,
    whileOk_issue_succeed (exec_lsbext (out := bits) ?_ 32#32 _ ?_), bitsOfStream_streamOfBits,
    issue_succeed (i := .bits2txt bits) rfl]
  · exact ⟨_, rfl, ⟨rfl, rfl, rfl⟩, ⟨rfl, rfl, rfl⟩, rfl⟩
  · exact hv
  · rw [zext32_ofNat hdecl]
    exact hb

/-- Settles O58: the two part only where STEGDEC compares the declared length with the grid and the sequence clips. -/
theorem decodeSequenceMatchesStegdec : Obligations.DecodeSequenceMatchesStegdec := by
  intro s t r hinv h
  cases hv : s.gvalid
  · cases (issue_raise (exec_gridInvalid rfl hv)).symm.trans h
    exact ⟨_, _, hostDecodeSrc_gridInvalid hv, sameBlock_respond s _, fun _ => rfl, fun hc => nomatch hc.1⟩
  · have hload := hinv.gridLoaded hv
    rcases Nat.lt_or_ge (pixelCount s) 32 with hn | hn
    · cases (issue_raise (exec_stegdec_small hv hn)).symm.trans h
      obtain ⟨t', hseq, hsame⟩ := hostDecodeSrc_small hload hn
      exact ⟨_, t', hseq, hsame, fun _ => rfl, fun hc => absurd hc.2 (by omega)⟩
    · obtain ⟨header, hh⟩ := extractGrid_isSome (start := 0) (length := 32) hload.2
      obtain ⟨bits, hb⟩ := extractGrid_isSome (start := 32) (length := unframeHeader header) hload.2
      obtain ⟨t', hseq, hsame⟩ := hostDecodeSrc_eq hv hn hh hb
      by_cases hd : pixelCount s - 32 < unframeHeader header
      · cases (issue_raise (exec_stegdec_beyond hv hn hh hd)).symm.trans h
        refine ⟨_, t', hseq, hsame, fun hc => absurd ⟨rfl, hn⟩ hc, fun _ => ?_⟩
        obtain ⟨hlen, hbits⟩ := extractGrid_eq_some.1 hb
        have hclip : bits.length = pixelCount s - 32 := by omega
        have hcount := pixelCount_lt s
        have htext := length_gzrBitsToText_le bits
        refine ⟨?_, rfl, ?_, bits, hclip, fun j hj => (hbits j hj).1, carries_streamOfText _⟩
        · rwa [toNat_setWidth_portPair hcount (unframeHeader_lt header)]
        · rw [portVal_toNat (by omega), streamOfText, List.length_map]
      · cases (issue_succeed (exec_stegdec hv hn hh hd hb)).symm.trans h
        exact ⟨_, t', hseq, hsame, fun _ => rfl, fun hc => nomatch hc.1⟩

/-! ### GZRENC.PAD -/

/-- Padded to the length of the table, the digits of a number below the next term decode to it (R77). -/
theorem gzrToInteger_lpad0_integerToGzr {n : Int} {k : Nat} (hpos : 0 < n) (hlt : n < trib k) :
    gzrToInteger (lpad0 (integerToGzr n (tribPrefix k)) k) (tribPrefix k) = n.toNat := by
  have hpad : lpad0 (lstrip0 (greedy n.toNat (tribPrefix k))) k = greedy n.toNat (tribPrefix k) := by
    have h := lpad0_lstrip0 (greedy n.toNat (tribPrefix k))
    rwa [length_greedy, length_tribPrefix] at h
  rw [integerToGzr_pos hpos, hpad, gzrToInteger_greedy_trib (by omega)]

/-- TRIBGEN answers the number of the terms it leaves in the table. -/
theorem issue_tribgen {a : Word} {s t : State} {r : Response} (h : issue (.tribgen a) s = some (r, t)) :
    t.wvalid = true ∧ tableWeights t = tribPrefix r.val.toNat := by
  obtain ⟨k, -, hk, hgen, -⟩ := generate_toInt_fits a
  have hlen : (generate a.toInt).length = k := by rw [hgen, length_tribPrefix]
  have hval : (portVal (generate a.toInt).length).toNat = k := by
    rw [hlen, portVal_toNat (hk.trans_lt (by decide))]
  cases (issue_succeed (i := .tribgen a) rfl).symm.trans h
  exact ⟨rfl, (tableWeights_setTable_generate s a).trans (hgen.trans (congrArg tribPrefix hval.symm))⟩

/-- With a table GZRENC is answered OK, and the table is still there for the next command. -/
theorem hostGzrencPad_eq {s : State} (hv : s.wvalid = true) (n : Word) (wlen : Nat) :
    ∃ e u, hostGzrencPad n wlen s = some (e, some (lpad0 (integerToGzr n.toInt (tableWeights s)) wlen), u) ∧
      e.status = .ok ∧ u.wvalid = true ∧ tableWeights u = tableWeights s := by
  have h : exec (.gzrenc n) s = succeed _ (streamOfBits (integerToGzr n.toInt (tableWeights s))) s :=
    requireTable_valid hv _
  rw [hostGzrencPad, issue_succeed h, Option.map_some]
  simp only [if_pos, bitsOfStream_streamOfBits]
  exact ⟨_, _, rfl, rfl, hv, rfl⟩

theorem exec_gzrdec {s : State} (hv : s.wvalid = true) (digits : Bits) :
    exec (.gzrdec digits) s = succeed (portVal (gzrToInteger digits (tableWeights s))) [] s :=
  requireTable_valid hv _

/-- Settles O59: TRIBGEN leaves the terms of the recurrence and answers their number, the width the host pads to. -/
theorem paddedEncodingRoundTripsOnTheMachine : Obligations.PaddedEncodingRoundTripsOnTheMachine := by
  intro a n s t r h hpos hlt
  obtain ⟨hv, htab⟩ := issue_tribgen h
  obtain ⟨e, u, hpad, he, hvu, htabu⟩ := hostGzrencPad_eq hv n r.val.toNat
  refine ⟨e, _, u, _, _, hpad, he, issue_succeed (exec_gzrdec hvu _), rfl, ?_⟩
  have hn : n.toInt < 2 ^ 31 := BitVec.toInt_lt
  rw [htabu, htab, gzrToInteger_lpad0_integerToGzr hpos hlt, portVal_toNat (by omega)]
  omega

end Sys2Proof.Machine

/-! SUPPORT. The statements about the generator: which terms `generate` takes, and what TRIBGEN leaves and answers. -/

namespace Sys2Proof.Machine

/-- Settles O41: the growth loop stops at the first term above the threshold. -/
theorem generateTakesTermsUpToTheThreshold : Obligations.GenerateTakesTermsUpToTheThreshold :=
  generate_eq_tribPrefix

/-- A larger threshold takes every term a smaller one takes. -/
theorem generate_prefix {t u : Int} (h : t ≤ u) : generate t <+: generate u := by
  obtain ⟨m, -, hm, -, hle⟩ := generate_eq_tribPrefix t
  obtain ⟨n, h3, hn, hgt, -⟩ := generate_eq_tribPrefix u
  have hmn : m ≤ n := by
    by_contra hlt
    have := hle n (by omega) h3
    omega
  rw [hm, hn]
  exact tribPrefix_prefix hmn

/-- Settles O42: the sequence is a prefix of the recurrence, the seed and the growth of which it shares. -/
theorem generatedSequencesGrow : Obligations.GeneratedSequencesGrow := by
  refine ⟨fun t => ?_, fun t u => generate_prefix⟩
  obtain ⟨n, h3, hgen, -, -⟩ := generate_eq_tribPrefix t
  rw [hgen, length_tribPrefix]
  have hseed : tribPrefix 3 = (tribPrefix n).take 3 := List.prefix_iff_eq_take.1 (tribPrefix_prefix h3)
  exact ⟨hseed.symm, tribPrefix_pairwise n, rfl⟩

/-- Settles O43: of the terms, `T(35)` is the last one below 2^31 (R63). -/
theorem generatedTablesFitTheRegisters : Obligations.GeneratedTablesFitTheRegisters := by
  intro a
  obtain ⟨n, -, h36, hgen, -⟩ := generate_toInt_fits a
  have hlast : trib 35 = 2082876103 := by decide
  rw [hgen, length_tribPrefix]
  refine ⟨h36, fun x hx => ?_⟩
  obtain ⟨i, hi, rfl⟩ := mem_tribPrefix hx
  rw [← hlast]
  exact trib_strictMono.monotone (Nat.le_of_lt_succ (hi.trans_le h36))

/-- Settles O10: the writes are those of `setTable`, and no table is too long for `WLEN` or has a term over 32 bits. -/
theorem tribgenReplacesTheTable : Obligations.TribgenReplacesTheTable := by
  intro a b str s
  obtain ⟨n, -, h36, hgen, hfit⟩ := generate_toInt_fits a
  have hlen : (generate a.toInt).length ≤ 36 := by rwa [hgen, length_tribPrefix]
  have hval : (portVal (generate a.toInt).length).toNat = (generate a.toInt).length :=
    portVal_toNat (by omega)
  have hwlen : (BitVec.ofNat 6 (generate a.toInt).length).toNat = (generate a.toInt).length :=
    Nat.mod_eq_of_lt (by omega)
  have hts : Carries (streamOfWeights (generate a.toInt)) (generate a.toInt) :=
    carries_streamOfWeights (hgen ▸ hfit)
  have hexec : exec (.tribgen a) s = succeed (portVal (generate a.toInt).length)
      (streamOfWeights (generate a.toInt)) (s.setTable (generate a.toInt)) := rfl
  have htable : tableWeights (s.setTable (generate a.toInt)) = generate a.toInt := tableWeights_setTable_generate s a
  exact ⟨rfl, _, _, _, hexec, ⟨rfl, rfl⟩, hts, hval, rfl, hwlen, htable, ⟨rfl, rfl, rfl⟩, rfl⟩

end Sys2Proof.Machine

/-! SUPPORT. The statements about the integer codec: what GZRENC and GZRDEC answer, what stripping the leading zeros does
to the digits, and where the greedy walk is exact. -/

namespace Sys2Proof.Machine

/-! ### What stripping does to the aligned string -/

/-- The digits kept and the zeros stripped make up the string. -/
theorem length_lstrip0_add (s : Bits) : (lstrip0 s).length + (s.takeWhile fun d => !d).length = s.length := by
  rw [Nat.add_comm, ← List.length_append, takeWhile_append_lstrip0]

/-- Nothing is stripped from a string that begins with 1. -/
theorem lstrip0_of_head? {s : Bits} (h : s.head? = some true) : lstrip0 s = s := by
  obtain ⟨rest, rfl⟩ := List.head?_eq_some_iff.1 h
  rfl

/-- A string without a leading 1 has a zero to strip, unless it is empty. -/
theorem takeWhile_zero_pos {s : Bits} (hne : s ≠ []) (h : s.head? ≠ some true) :
    1 ≤ (s.takeWhile fun d => !d).length := by
  match s with
  | [] => exact absurd rfl hne
  | true :: _ => exact absurd rfl h
  | false :: _ => simp

/-- Stripping keeps the 1 digits. -/
theorem true_mem_lstrip0 {s : Bits} (h : true ∈ s) : true ∈ lstrip0 s := by
  rw [← takeWhile_append_lstrip0 s, List.mem_append] at h
  refine h.resolve_left fun hz => ?_
  simpa using List.mem_takeWhile_imp hz

theorem head?_lstrip0_of_mem {s : Bits} (h : true ∈ s) : (lstrip0 s).head? = some true :=
  (head?_lstrip0 s).resolve_right (List.ne_nil_of_mem (true_mem_lstrip0 h))

/-- In a strictly increasing table, a string with a 1 in it that does not begin with 1 loses value by stripping. -/
theorem gzrToInteger_lstrip0_lt {s : Bits} {seq : List Nat} (hs : seq.Pairwise fun a b => a < b)
    (hl : s.length = seq.length) (h1 : true ∈ s) (hd : s.head? ≠ some true) :
    gzrToInteger (lstrip0 s) seq < gzrToInteger s seq := by
  have hlen : (s.takeWhile fun d => !d).length + (lstrip0 s).length = seq.length := by
    rw [Nat.add_comm, length_lstrip0_add, hl]
  have hlt := gzrToInteger_strip hs (takeWhile_zero_pos (List.ne_nil_of_mem h1) hd) hlen (true_mem_lstrip0 h1)
  rwa [← takeWhile_zero_eq_replicate, takeWhile_append_lstrip0] at hlt

/-- Settles O44: stripping drops the zeros in front of the aligned string and nothing else. -/
theorem strippedDigitsShift : Obligations.StrippedDigitsShift := by
  intro n seq hn
  rw [integerToGzr_pos hn]
  refine ⟨?_, fun j => ?_⟩
  · rw [length_lstrip0_add, length_greedy]
  · rw [lstrip0_eq_drop, List.getElem?_drop, Nat.add_comm]

/-! ### The encoder over the terms of the recurrence -/

/-- The table has weight 1 in front, so the walk of a positive number takes something. -/
theorem true_mem_greedy_tribPrefix {k n : Nat} (hk : 1 ≤ k) (hn : 1 ≤ n) : true ∈ greedy n (tribPrefix k) := by
  obtain ⟨m, rfl⟩ := Nat.exists_eq_add_of_le hk
  rw [tribPrefix, List.range_add, List.map_append]
  exact true_mem_greedy hn _

/-- The digits of a positive number begin with 1 (R71). -/
theorem head?_integerToGzr_tribPrefix {k : Nat} {n : Int} (hk : 1 ≤ k) (hn : 0 < n) :
    (integerToGzr n (tribPrefix k)).head? = some true := by
  rw [integerToGzr_pos hn]
  exact head?_lstrip0_of_mem (true_mem_greedy_tribPrefix hk (by omega))

/-- There is always a digit: the 0 of `n <= 0`, or the leading 1. -/
theorem length_integerToGzr_tribPrefix_pos {k : Nat} (hk : 1 ≤ k) (n : Int) :
    1 ≤ (integerToGzr n (tribPrefix k)).length := by
  rcases lt_or_ge 0 n with hn | hn
  · have hne : integerToGzr n (tribPrefix k) ≠ [] :=
      List.ne_nil_of_mem (List.mem_of_mem_head? (head?_integerToGzr_tribPrefix hk hn))
    exact List.length_pos_iff.2 hne
  · rw [integerToGzr_nonpos hn, List.length_singleton]

/-- Padding to the table length undoes the stripping (R77). -/
theorem lpad0_integerToGzr {n : Int} (hn : 0 < n) (seq : List Nat) :
    lpad0 (integerToGzr n seq) seq.length = greedy n.toNat seq := by
  have h := lpad0_lstrip0 (greedy n.toNat seq)
  rwa [length_greedy, ← integerToGzr_pos hn] at h

/-- The stripped digits are a piece of the aligned string, so the piece has three consecutive 1 digits only if the
string has. -/
theorem verifyNo111_integerToGzr {n : Int} {seq : List Nat} (hn : 0 < n)
    (h : verifyNo111 (greedy n.toNat seq) = true) : verifyNo111 (integerToGzr n seq) = true := by
  rw [integerToGzr_pos hn, lstrip0_eq_drop]
  exact verifyNo111_drop h _

/-! ### What the two instructions answer -/

/-- The weights of a table, all of them taken, fit the `val` port. -/
theorem gzrToInteger_tableWeights_lt (digits : Bits) (s : State) : gzrToInteger digits (tableWeights s) < 2 ^ 64 := by
  have hlen := (length_tableWeights_le s).1
  have hsum : (tableWeights s).sum ≤ (tableWeights s).length * 2 ^ 32 :=
    List.sum_le_card_nsmul _ _ fun x hx => (tableWeights_lt hx).le
  have hle := gzrToInteger_le_sum digits (tableWeights s)
  omega

/-- Settles O12: 36 weights of 32 bits sum to less than the port holds. -/
theorem gzrdecSumsTheWeights : Obligations.GzrdecSumsTheWeights := by
  intro a b str digits s
  refine ⟨rfl, fun hv => requireTable_invalid hv _, fun hv => ⟨_, exec_gzrdec hv digits, ?_⟩⟩
  rw [portVal_toNat (gzrToInteger_tableWeights_lt digits s), gzrToInteger_eq_sum]

theorem exec_gzrenc {s : State} (hv : s.wvalid = true) (n : Word) :
    exec (.gzrenc n) s = succeed (portVal (integerToGzr n.toInt (tableWeights s)).length)
      (streamOfBits (integerToGzr n.toInt (tableWeights s))) s :=
  requireTable_valid hv _

/-- Settles O11: the digits are no more than the weights, and begin with 1 where the table has weight 1. -/
theorem gzrencEncodesOverTheTable : Obligations.GzrencEncodesOverTheTable := by
  intro a b str s
  refine ⟨rfl, fun hv => requireTable_invalid hv _, fun hv => ?_⟩
  have hle := length_integerToGzr_le a.toInt (tableWeights s)
  have h36 := (length_tableWeights_le s).1
  have hval : (portVal (integerToGzr a.toInt (tableWeights s)).length).toNat =
      (integerToGzr a.toInt (tableWeights s)).length := portVal_toNat (by omega)
  refine ⟨_, _, exec_gzrenc hv a, carries_streamOfBits _, hval, fun hn => ?_, fun hinv => ?_⟩
  · rw [integerToGzr_nonpos hn]
    rfl
  · obtain ⟨h3, -, htab⟩ := hinv hv
    rw [hval]
    rw [htab] at hle ⊢
    rw [length_tribPrefix] at hle
    exact ⟨length_integerToGzr_tribPrefix_pos (by omega) _, by omega, head?_integerToGzr_tribPrefix (by omega)⟩

/-! ### Where the greedy walk is exact -/

/-- From 274, the next term of W255, on the digits may hold three consecutive 1 digits (R76). -/
theorem greedy_274_w255 : greedy 274 w255 = [false, false, false, false, false, false, true, true, true] := by decide

/-- Settles O46: the walk over the terms is exact below the next one; all weights of W255 together sum to 325. -/
theorem greedyWalkIsExactBelowTheNextTerm : Obligations.GreedyWalkIsExactBelowTheNextTerm := by
  refine ⟨fun t n hn hlt => ?_, greedy_274_w255, ?_, fun n hn => ?_⟩
  · obtain ⟨k, -, hgen, -, -⟩ := generate_eq_tribPrefix t
    rw [hgen, length_tribPrefix] at hlt
    rw [hgen]
    have hno := verifyNo111_greedy_trib hlt
    exact ⟨gzrToInteger_greedy_trib hlt, hno, verifyNo111_integerToGzr (Int.natCast_pos.2 hn) hno⟩
  · rw [integerToGzr_pos (by decide)]
    exact congrArg lstrip0 greedy_274_w255
  · have hle := gzrToInteger_le_sum (greedy n w255) w255
    rw [sum_w255] at hle
    omega

/-- Settles O47: padding gives the aligned string back, and the single 0 of `n <= 0` becomes zeros throughout. -/
theorem paddedDigitsRoundTrip : Obligations.PaddedDigitsRoundTrip := by
  refine ⟨fun t n hn hlt => ?_, fun t n hn => ?_⟩ <;>
    obtain ⟨k, h3, hgen, -, -⟩ := generate_eq_tribPrefix t
  · rw [hgen, length_tribPrefix] at hlt
    rw [lpad0_integerToGzr (Int.natCast_pos.2 hn), hgen]
    exact ⟨rfl, gzrToInteger_greedy_trib hlt⟩
  · have hpad : lpad0 (integerToGzr n (generate t)) (generate t).length = List.replicate (generate t).length false := by
      rw [integerToGzr_nonpos hn, hgen, length_tribPrefix, lpad0, List.length_singleton, ← List.replicate_one,
        List.replicate_append_replicate, Nat.sub_add_cancel (by omega)]
    exact ⟨hpad, hpad ▸ gzrToInteger_zeros _ _⟩

/-! ### The round trip of the literal encoder -/

/-- Below the next term the literal digits decode to the number if weight 1 is taken, and to less if not (R75). -/
theorem gzrToInteger_integerToGzr_trib {k n : Nat} (hk : 1 ≤ k) (hn : 1 ≤ n) (hlt : n < trib k) :
    ((greedy n (tribPrefix k)).head? = some true → gzrToInteger (integerToGzr n (tribPrefix k)) (tribPrefix k) = n) ∧
    ((greedy n (tribPrefix k)).head? ≠ some true → gzrToInteger (integerToGzr n (tribPrefix k)) (tribPrefix k) < n) := by
  have hexact := gzrToInteger_greedy_trib hlt
  rw [integerToGzr_pos (Int.natCast_pos.2 hn), Int.toNat_natCast]
  refine ⟨fun hd => ?_, fun hd => ?_⟩
  · rw [lstrip0_of_head? hd, hexact]
  · calc gzrToInteger (lstrip0 (greedy n (tribPrefix k))) (tribPrefix k)
        < gzrToInteger (greedy n (tribPrefix k)) (tribPrefix k) :=
          gzrToInteger_lstrip0_lt (tribPrefix_pairwise k) (length_greedy _ _) (true_mem_greedy_tribPrefix hk hn) hd
      _ = n := hexact

/-- Settles O45: the law gives each `n` up to the threshold, which is below the next term; the counts are evaluated. -/
theorem literalRoundTripNeedsWeightOne : Obligations.LiteralRoundTripNeedsWeightOne := by
  refine ⟨fun t n _ hn hle => ?_, by rfl, by rfl, by decide, by decide⟩
  obtain ⟨k, h3, hgen, hgt, -⟩ := generate_eq_tribPrefix t
  rw [hgen]
  obtain ⟨hsame, hless⟩ := gzrToInteger_integerToGzr_trib (by omega) hn (k := k) (by omega)
  refine ⟨⟨fun heq => ?_, hsame⟩, hless⟩
  by_contra hd
  exact (hless hd).ne heq

end Sys2Proof.Machine

/-! SUPPORT. The statements about the text codec: what TXT2BITS and BITS2TXT answer, what STEGENC embeds, and what a
text's slots decode to. -/

namespace Sys2Proof.Machine

/-! ### The text of a bit stream -/

/-- All weights of W255 together sum to 325, so no digit string is worth more. -/
theorem gzrToInteger_w255_le (ds : Bits) : gzrToInteger ds w255 ≤ 325 :=
  (gzrToInteger_le_sum ds w255).trans_eq sum_w255

/-- The text of a bit stream is the values of its complete pieces without the zeros: every value fits a code point. -/
theorem map_toNat_gzrBitsToText (bits : Bits) :
    (gzrBitsToText bits).map BitVec.toNat =
      ((chunks9 bits).map fun chunk => gzrToInteger chunk w255).filter fun x => x ≠ 0 := by
  rw [gzrBitsToText]
  induction chunks9 bits with
  | nil => rfl
  | cons chunk chunks ih =>
    have hle := gzrToInteger_w255_le chunk
    rcases Nat.eq_zero_or_pos (gzrToInteger chunk w255) with hz | hpos
    · rw [List.filterMap_cons_none (by simp [hz]), ih, List.map_cons, List.filter_cons_of_neg (by simp [hz])]
    · rw [List.filterMap_cons_some (b := BitVec.ofNat 9 (gzrToInteger chunk w255)) (by simp [hpos]), List.map_cons, ih,
        BitVec.toNat_ofNat, Nat.mod_eq_of_lt (by omega), List.map_cons, List.filter_cons_of_pos (by simp [hpos.ne'])]

/-- Code points are 1 to 325 (R86). -/
theorem toNat_bounds_of_mem_gzrBitsToText {bits : Bits} {c : CodePoint} (h : c ∈ gzrBitsToText bits) :
    1 ≤ c.toNat ∧ c.toNat ≤ 325 := by
  have hmem := List.mem_map_of_mem (f := BitVec.toNat) h
  rw [map_toNat_gzrBitsToText, List.mem_filter, List.mem_map] at hmem
  obtain ⟨⟨chunk, -, hval⟩, hne⟩ := hmem
  exact ⟨Nat.one_le_iff_ne_zero.2 (of_decide_eq_true hne), hval ▸ gzrToInteger_w255_le chunk⟩

/-- Settles O48: the complete pieces of a text's payload are its slots, and a slot is worth its code point. -/
theorem textRoundTripDropsZeros : Obligations.TextRoundTripDropsZeros := by
  intro text
  rw [map_toNat_gzrBitsToText, chunks9_textToGzrBits, List.map_map]
  congr 1
  exact List.map_congr_left fun c _ => gzrToInteger_charSlot c

/-! ### What the two instructions answer -/

theorem textToGzrBits_eq_flatMap_greedy (text : List Byte) :
    textToGzrBits text = text.flatMap fun c => greedy c.toNat w255 :=
  List.flatMap_congr fun c _ => charSlot_eq c

/-- Settles O13: a slot is the aligned greedy string of its code point, nine digits long. -/
theorem txt2bitsConcatenatesSlots : Obligations.Txt2bitsConcatenatesSlots := by
  intro a b text s
  refine ⟨rfl, _, _, rfl, ?_, ?_, portVal_toNat⟩
  · rw [← textToGzrBits_eq_flatMap_greedy]
    exact carries_streamOfBits _
  · rw [streamOfBits, List.length_map, length_textToGzrBits]

/-- Settles O14: the stream is the text of the bits, whose pieces are the slices at the multiples of 9. -/
theorem bits2txtReadsCompleteSlots : Obligations.Bits2txtReadsCompleteSlots := by
  intro a b str bits s
  have hcarries := carries_streamOfText (gzrBitsToText bits)
  refine ⟨rfl, _, _, rfl, ?_, fun x hx => ?_, fun hlt => ?_⟩
  · rwa [map_toNat_gzrBitsToText, chunks9, chunks_eq_map, List.map_map] at hcarries
  · have hmem := List.mem_map_of_mem (f := BitVec.toNat) hx
    rw [hcarries] at hmem
    obtain ⟨c, hc, hval⟩ := List.mem_map.1 hmem
    exact hval ▸ toNat_bounds_of_mem_gzrBitsToText hc
  · rw [streamOfText, List.length_map] at hlt ⊢
    exact portVal_toNat hlt

/-! ### The no-111 property -/

/-- Settles O49: each slot is a greedy string, and across slots and in a header, here of 7 digits, nothing prevents
three consecutive 1 digits. -/
theorem no111HoldsPerSlotOnly : Obligations.No111HoldsPerSlotOnly := by
  refine ⟨fun text chunk hmem => ?_, by decide, by decide, by decide, List.replicate 7 false, by decide, by decide⟩
  rw [chunks9_textToGzrBits] at hmem
  obtain ⟨c, -, rfl⟩ := List.mem_map.1 hmem
  exact ⟨length_charSlot c, verifyNo111_charSlot c⟩

/-! ### STEGENC -/

/-- Settles O24: the capacity check fails by its two numbers, and what passes it is embedded as LSBEMB embeds. -/
theorem stegencEmbedsTheFramedText : Obligations.StegencEmbedsTheFramedText := by
  intro a b text s
  have hcap : capacityBytes (pixelCount s) < 2 ^ 32 := (Nat.div_le_self _ 8).trans_lt (pixelCount_lt s)
  have hlen : (frame (textToGzrBits text)).length = 32 + 9 * text.length := by
    rw [length_frame, length_textToGzrBits]
  refine ⟨rfl, fun hv => exec_gridInvalid rfl hv, fun hv hlt => ⟨_, exec_stegenc_exceeded hv hlt, ?_, fun hreq => ?_⟩,
    fun hloaded hle => ?_⟩
  · exact portPair_high _ _ hcap
  · exact (BitVec.toNat_setWidth 32 _).symm.trans (toNat_setWidth_portPair hcap hreq)
  · obtain ⟨hv, hpix⟩ := hloaded
    obtain ⟨m, hm⟩ := embedGrid_isSome (f := frame (textToGzrBits text)) hpix
    refine ⟨_, _, exec_stegenc hv (Nat.not_lt_of_le hle) hm, ⟨rfl, rfl⟩, ?_, ⟨rfl, rfl, rfl⟩, ⟨rfl, rfl, rfl⟩,
      fun k => ?_⟩
    · rw [hlen]
      have hcount := pixelCount_lt s
      exact portVal_toNat (by omega)
    · rw [← hlen]
      exact read_embedGrid hm k

end Sys2Proof.Machine

/-! SUPPORT. The statements about the bitstream framer: what FRAME, UNFRAMEH and UNFRAMEP answer, and that a frame is
read back. -/

namespace Sys2Proof.Machine

/-! ### The frame and its two readers -/

/-- The header of a stream that has one is the weighted sum of its first 32 digits (R102). -/
theorem unframeHeader_eq_sum {f : Bits} (h : 32 ≤ f.length) :
    unframeHeader f = ((List.range 32).map fun k => (f.getD k false).toNat * 2 ^ (31 - k)).sum := by
  have hlen : (slice f 0 Config.headerWidth).length = 32 := by
    rw [length_slice, Config.headerWidth, Nat.sub_zero, Nat.min_eq_left h]
  rw [unframeHeader, unbin_eq_sum, hlen]
  refine congrArg List.sum (List.map_congr_left fun k hk => ?_)
  have hdigit : (slice f 0 Config.headerWidth)[k]? = f[k]? := by
    rw [getElem?_slice, Nat.zero_add, if_pos (List.mem_range.1 hk)]
  rw [List.getD_eq_getElem?_getD, List.getD_eq_getElem?_getD, hdigit]

/-- The payload is cut at the declared length or at the stream's end, whichever comes first (R104). -/
theorem length_unframePayload (f : Bits) (n : Nat) : (unframePayload f n).length = min n (f.length - 32) := by
  rw [unframePayload, length_slice, Config.headerWidth]
  omega

theorem getElem?_unframePayload (f : Bits) {n j : Nat} (h : j < n) : (unframePayload f n)[j]? = f[32 + j]? := by
  rw [unframePayload, getElem?_slice, if_pos (Nat.add_lt_add_left h _)]

/-- The first 32 digits of a frame are its header, which spells the payload's length. -/
theorem unframeHeader_frame_append {p : Bits} (h : p.length < 2 ^ 32) (x : Bits) :
    unframeHeader (frame p ++ x) = p.length := by
  have hheader := slice_append_left (bin32 p.length) (p ++ x)
  rw [length_bin32] at hheader
  rw [unframeHeader, frame, List.append_assoc, hheader, unbin_bin32 h]

/-- The digits after the header, as many as the payload has, are the payload. -/
theorem unframePayload_frame_append (p x : Bits) : unframePayload (frame p ++ x) p.length = p := by
  have hpayload := slice_append_right (bin32 p.length) (p ++ x) p.length
  rw [length_bin32, List.take_left] at hpayload
  rw [unframePayload, frame, List.append_assoc, hpayload]

/-- Settles O50: the frame alone is the frame followed by nothing. -/
theorem framesAreReadBack : Obligations.FramesAreReadBack := by
  intro p x hp
  have hheader := unframeHeader_frame_append hp []
  have hpayload := unframePayload_frame_append p []
  rw [List.append_nil] at hheader hpayload
  exact ⟨hheader, hpayload, unframePayload_frame_append p x⟩

/-! ### What the three instructions answer -/

theorem exec_frame_too_long {p : Bits} (h : 2 ^ 32 ≤ p.length) (s : State) :
    exec (.frame p) s = raise .operandError 0#64 s :=
  if_pos h

/-- Settles O15: the header is `bin32` of the length, and a frame is short enough for the port. -/
theorem framePrependsTheLength : Obligations.FramePrependsTheLength := by
  intro a b str p s
  refine ⟨rfl, fun hlong => exec_frame_too_long hlong s, fun hp => ?_⟩
  exact ⟨_, _, bin32 p.length, exec_frame hp s, portVal_toNat (by omega), carries_streamOfBits (frame p),
    length_bin32 _, fun k hk => getElem?_bin32 _ hk⟩

/-- Settles O16: both numbers of the answer, below 32 and a header's value, fit their fields of the port. -/
theorem unframehReadsTheHeader : Obligations.UnframehReadsTheHeader := by
  intro a b str f s
  refine ⟨rfl, fun hshort => ⟨_, exec_unframeh_short hshort s, ?_⟩, fun hlong => ⟨_, exec_unframeh hlong s, ?_⟩⟩
  · rw [portPair_toNat (by omega) (by omega), Nat.add_zero]
  · have hlt := unframeHeader_lt f
    rw [portVal_toNat (by omega), unframeHeader_eq_sum hlong]

/-- Settles O17: the payload is no longer than the 32-bit operand says, so its length fits the port. -/
theorem unframepSlicesThePayload : Obligations.UnframepSlicesThePayload := by
  intro a b str f s
  have hlen := length_unframePayload f a.toNat
  have ha : a.toNat < 2 ^ 32 := a.isLt
  have hval : (portVal (unframePayload f a.toNat).length).toNat = (unframePayload f a.toNat).length :=
    portVal_toNat (by omega)
  refine ⟨rfl, _, _, _, rfl, carries_streamOfBits _, hval, hlen, fun j hj => getElem?_unframePayload f ?_⟩
  exact hj.trans_le (hlen.trans_le (Nat.min_le_left _ _))

end Sys2Proof.Machine

/-! SUPPORT. The statements about the LSB channel: what CAPQ, CAPCHK, LSBEMB and LSBEXT answer, what embedding may
change, and that extraction reads back what was embedded. -/

namespace Sys2Proof.Machine

/-! ### The two capacities -/

theorem capacityBytes_lt (s : State) : capacityBytes (pixelCount s) < 2 ^ 32 :=
  (Nat.div_le_self _ 8).trans_lt (pixelCount_lt s)

theorem requiredBytes_zext32_lt (a : Word) : requiredBytes (zext32 a) < 2 ^ 32 := by
  have ha : zext32 a < 2 ^ 32 := a.isLt
  rw [requiredBytes]
  omega

theorem exec_capq {s : State} (hv : s.gvalid = true) :
    exec .capq s = succeed (portPair (pixelCount s) (capacityBytes (pixelCount s))) [] s :=
  requireGrid_valid hv _

/-- Settles O20: both capacities of a grid fit their halves of `val`. -/
theorem capqAnswersBothCapacities : Obligations.CapqAnswersBothCapacities := by
  intro a b str s
  exact ⟨rfl, exec_gridInvalid rfl, fun hv =>
    ⟨_, exec_capq hv, portPair_toNat (pixelCount_lt s) (capacityBytes_lt s)⟩⟩

/-- Settles O21: the capacity check raises exactly when the requirement is above the capacity, and both numbers fit
their fields. -/
theorem capchkComparesBytes : Obligations.CapchkComparesBytes := by
  intro a b str s
  have hreq := requiredBytes_zext32_lt a
  refine ⟨rfl, exec_gridInvalid rfl, fun hv hlt => ⟨_, ?_, portPair_toNat (capacityBytes_lt s) hreq⟩,
    fun hv hle => ⟨_, ?_, portVal_toNat (hreq.trans (by decide))⟩⟩
  · exact (exec_capchk hv a).trans (checkCapacity_exceeded hlt _)
  · exact (exec_capchk hv a).trans (checkCapacity_met (Nat.not_lt_of_le hle) _)

/-! ### What the two transfers answer -/

/-- Settles O18: on a loaded grid the loop finds its pixels, and the number of bits it places fits the port. -/
theorem lsbembWritesTheLowBits : Obligations.LsbembWritesTheLowBits := by
  intro a b str f s
  refine ⟨rfl, exec_gridInvalid rfl, fun ⟨hv, hpix⟩ => ?_⟩
  obtain ⟨m, hm⟩ := embedGrid_isSome (f := f) hpix
  have hcount := pixelCount_lt s
  exact ⟨_, _, exec_lsbemb hv hm, ⟨rfl, rfl⟩, portVal_toNat (by omega), ⟨rfl, rfl, rfl⟩, ⟨rfl, rfl, rfl⟩,
    read_embedGrid hm⟩

/-- Settles O19: no more bits are taken than the 32-bit operand says, so their number fits the port. -/
theorem lsbextReadsTheLowBits : Obligations.LsbextReadsTheLowBits := by
  intro a b str s
  refine ⟨rfl, exec_gridInvalid rfl, fun ⟨hv, hpix⟩ => ?_⟩
  obtain ⟨out, ho⟩ := extractGrid_isSome (start := zext32 a) (length := zext32 b) hpix
  obtain ⟨hlen, hbits⟩ := extractGrid_eq_some.1 ho
  have hcount := pixelCount_lt s
  exact ⟨_, _, out, exec_lsbext hv a b ho, carries_streamOfBits out, portVal_toNat (by omega), hlen,
    fun j hj => (hbits j hj).1⟩

/-! ### What embedding may change -/

/-- A pixel that embedding meets keeps its bits 7 to 1, whether a bit is placed in it or not. -/
theorem read_embedGrid_and_mask {f : Bits} {s : State} {m : Memory} (h : embedGrid f s = some m) {k : Nat} {old : Byte}
    (hold : s.pix.read k = some old) : ∃ new, m.read k = some new ∧ new &&& 0xFE#8 = old &&& 0xFE#8 := by
  rw [read_embedGrid h, hold]
  split
  · exact ⟨_, rfl, embedPixel_and_mask old _⟩
  · exact ⟨old, rfl, rfl⟩

/-- Settles O34: pixels that agree in bits 7 to 1 differ by at most 1, and a refused embedder changes no pixel. -/
theorem embeddingChangesOnlyTheLowBit : Obligations.EmbeddingChangesOnlyTheLowBit := by
  intro i s t k old hi h hold
  have hnew : ∃ new, t.pix.read k = some new ∧ new &&& 0xFE#8 = old &&& 0xFE#8 := by
    obtain ⟨-, -, hpix⟩ | ⟨hn, u, r, hw, rfl⟩ := exec_sameBlock_or_writes h
    · exact ⟨old, by rw [hpix, hold], rfl⟩
    · cases hw with
      | nothing hn' => rw [hn] at hn'; cases hn'
      | embedded _ hm | encoded _ hm => exact read_embedGrid_and_mask hm hold
      | table _ | loaded _ _ _ => obtain ⟨_, hi⟩ | ⟨_, hi⟩ := hi <;> cases hi
  obtain ⟨new, hread, hmask⟩ := hnew
  exact ⟨new, hread, hmask, toNat_le_of_and_mask hmask, toNat_le_of_and_mask hmask.symm⟩

/-- An LSBEMB that answers with a grid has embedded. -/
theorem exec_lsbemb_eq_next {f : Bits} {s t : State} (hv : s.gvalid = true) (h : exec (.lsbemb f) s = .next t) :
    ∃ m r, embedGrid f s = some m ∧ t = (s.setPix m).respond r := by
  obtain ⟨m, hm, hgo⟩ := withPixels_eq_next ((requireGrid_valid hv _).symm.trans h)
  exact ⟨m, _, hm, (succeed_eq_next.1 hgo).symm⟩

/-- Embedding the same bits again finds them in place. -/
theorem read_embedGrid_embedGrid {f : Bits} {s : State} {m m' : Memory} (h : embedGrid f s = some m)
    (h' : embedGrid f (s.setPix m) = some m') (k : Nat) : m'.read k = m.read k := by
  by_cases hk : k < min f.length (pixelCount s)
  · have hk' : k < min f.length (pixelCount (s.setPix m)) := hk
    rw [read_embedGrid h', if_pos hk', State.setPix_pix, read_embedGrid h, if_pos hk, Option.map_map]
    exact congrArg (Option.map · _) (funext fun old => embedPixel_embedPixel old _ _)
  · exact read_embedGrid_of_le h' (Nat.le_of_not_lt hk)

/-- Settles O52: without a grid neither command writes; with one the second places the bits that are there. -/
theorem embeddingTwiceIsEmbeddingOnce : Obligations.EmbeddingTwiceIsEmbeddingOnce := by
  intro f s t u ht hu k
  cases hv : s.gvalid
  · cases (exec_gridInvalid rfl hv).symm.trans ht
    cases (exec_gridInvalid (s := s.respond _) rfl hv).symm.trans hu
    rfl
  · obtain ⟨m, r, hm, rfl⟩ := exec_lsbemb_eq_next hv ht
    obtain ⟨m', r', hm', rfl⟩ := exec_lsbemb_eq_next (s := (s.setPix m).respond r) hv hu
    exact read_embedGrid_embedGrid hm hm' k

/-! ### Extraction after embedding -/

/-- A range within the embedded bits is extracted as that range of them, without the bits beyond the last pixel. -/
theorem extractGrid_embedGrid {f : Bits} {s : State} {m : Memory} (hs : s.GridLoaded) (hm : embedGrid f s = some m)
    {start length : Nat} (h : start + length ≤ f.length) :
    extractGrid start length (s.setPix m) = some (slice (f.take (pixelCount s)) start (start + length)) := by
  obtain ⟨-, hpix⟩ := hs
  have hlen : (slice (f.take (pixelCount s)) start (start + length)).length = min length (pixelCount s - start) := by
    rw [length_slice, List.length_take]
    omega
  refine extractGrid_eq_some.2 ⟨hlen, fun j hj => ?_⟩
  have hcount : start + j < pixelCount s := by omega
  have hf : start + j < f.length := by omega
  obtain ⟨old, hold⟩ := Option.isSome_iff_exists.1 (hpix _ hcount)
  have hread : m.read (start + j) = some (embedPixel old f[start + j]) := by
    rw [read_embedGrid hm, if_pos (by omega), hold, Option.map_some, List.getD_eq_getElem _ _ hf]
  rw [State.setPix_pix, hread, getElem?_slice, if_pos (by omega), List.getElem?_take, if_pos hcount,
    List.getElem?_eq_getElem hf, Option.map_some, pixelLsb_embedPixel]
  exact ⟨rfl, rfl⟩

/-- The whole range gives back every bit there was a pixel for (R122). -/
theorem extractGrid_embedGrid_length {f : Bits} {s : State} {m : Memory} (hs : s.GridLoaded)
    (hm : embedGrid f s = some m) : extractGrid 0 f.length (s.setPix m) = some (f.take (pixelCount s)) := by
  have hslice : slice (f.take (pixelCount s)) 0 f.length = f.take (pixelCount s) :=
    List.take_of_length_le (List.length_take_le' _ f)
  have hext := extractGrid_embedGrid hs hm (start := 0) (length := f.length) (by omega)
  rwa [Nat.zero_add, hslice] at hext

/-- Settles O51: the range of LSBEXT is all of the embedded bits, where their number fits its operand. -/
theorem extractReturnsWhatWasEmbedded : Obligations.ExtractReturnsWhatWasEmbedded := by
  intro f s hs
  have ⟨hv, hpix⟩ := hs
  obtain ⟨m, hm⟩ := embedGrid_isSome (f := f) hpix
  have hext := extractGrid_embedGrid_length hs hm
  refine ⟨_, exec_lsbemb hv hm, hext, fun k hk => read_embedGrid_of_le hm (by omega), fun hlen => ?_⟩
  rw [← zext32_ofNat hlen] at hext
  exact ⟨_, _, exec_lsbext (s := (s.setPix m).respond _) hv 0#32 _ hext, carries_streamOfBits _⟩

/-- The first 32 digits of a frame are its header (R100). -/
theorem slice_frame_header (p : Bits) : slice (frame p) 0 32 = bin32 p.length := by
  have h := slice_append_left (bin32 p.length) p
  rwa [length_bin32] at h

/-- The digits of a frame after its header are its payload (R100). -/
theorem slice_frame_payload (p : Bits) : slice (frame p) 32 (32 + p.length) = p := by
  have h := unframePayload_frame_append p []
  rwa [List.append_nil] at h

/-- Settles O53: a frame that fits is on the grid whole, and the two ranges are its header and its payload. -/
theorem embeddedFrameLayout : Obligations.EmbeddedFrameLayout := by
  intro p s hs hfits
  have ⟨hv, hpix⟩ := hs
  have hcount := pixelCount_lt s
  have hlen := length_frame p
  have hwhole : (frame p).take (pixelCount s) = frame p := List.take_of_length_le (by omega)
  obtain ⟨m, hm⟩ := embedGrid_isSome (f := frame p) hpix
  have hheader := extractGrid_embedGrid hs hm (start := 0) (length := 32) (by omega)
  have hpayload := extractGrid_embedGrid hs hm (start := 32) (length := p.length) (by omega)
  rw [hwhole, Nat.zero_add, slice_frame_header] at hheader
  rw [hwhole, slice_frame_payload, ← zext32_ofNat (show p.length < 2 ^ 32 by omega)] at hpayload
  exact ⟨_, _, _, _, _, exec_lsbemb hv hm,
    exec_lsbext (s := (s.setPix m).respond _) hv 0#32 32#32 hheader, carries_streamOfBits _,
    exec_lsbext (s := (s.setPix m).respond _) hv 32#32 _ hpayload, carries_streamOfBits _⟩

end Sys2Proof.Machine

/-! SUPPORT. The statements about the grid and the composite operations: what GRIDLD, GRIDRD and STEGDEC answer, that a
loaded grid is handed back, and what STEGDEC makes of what STEGENC embedded. -/

namespace Sys2Proof.Machine

/-! ### GRIDLD -/

theorem exec_gridld_wide {a b : Word} (h : 2 ^ 16 ≤ a.toNat ∨ 2 ^ 16 ≤ b.toNat) (px : List Byte) (s : State) :
    exec (.gridld a b px) s = raise .operandError 1#64 s := by
  have hwide : upperHalf a ≠ 0#16 ∨ upperHalf b ≠ 0#16 := by
    rwa [Ne, Ne, upperHalf_eq_zero, upperHalf_eq_zero, Nat.not_lt, Nat.not_lt]
  exact if_pos hwide

section
variable {a b : Word} (ha : a.toNat < 2 ^ 16) (hb : b.toNat < 2 ^ 16)
include ha hb

/-- With dimensions that fit their registers the stream's length decides (R135). -/
theorem exec_gridld_dims (px : List Byte) (s : State) :
    exec (.gridld a b px) s =
      if px.length ≠ a.toNat * b.toNat then raise .operandError 2#64 s
      else succeed (portVal (a.toNat * b.toNat)) [] (s.setGrid (dimField a) (dimField b) px) := by
  have hfit : ¬(upperHalf a ≠ 0#16 ∨ upperHalf b ≠ 0#16) := by
    rw [not_or, not_not, not_not, upperHalf_eq_zero, upperHalf_eq_zero]
    exact ⟨ha, hb⟩
  rw [exec, execGridld, if_neg hfit, dimField_toNat ha, dimField_toNat hb]

theorem exec_gridld {px : List Byte} (hl : px.length = a.toNat * b.toNat) (s : State) :
    exec (.gridld a b px) s =
      succeed (portVal (a.toNat * b.toNat)) [] (s.setGrid (dimField a) (dimField b) px) :=
  (exec_gridld_dims ha hb px s).trans (if_neg (not_not_intro hl))

/-- The grid GRIDLD leaves has as many pixels as its operands say. -/
theorem pixelCount_setGrid (px : List Byte) (s : State) :
    pixelCount (s.setGrid (dimField a) (dimField b) px) = a.toNat * b.toNat := by
  rw [pixelCount, State.setGrid_h, State.setGrid_w, dimField_toNat ha, dimField_toNat hb]

end

/-- Settles O22: the two refusals exclude each other, and the number of pixels fits the port. -/
theorem gridldReplacesTheGrid : Obligations.GridldReplacesTheGrid := by
  intro a b px s
  refine ⟨rfl, fun hwide => exec_gridld_wide hwide px s,
    fun ha hb hl => (exec_gridld_dims ha hb px s).trans (if_pos hl), fun ha hb hl => ?_⟩
  have hcount : a.toNat * b.toNat < 2 ^ 32 := pixelCount_setGrid ha hb px s ▸ pixelCount_lt _
  exact ⟨_, _, exec_gridld ha hb hl s, ⟨rfl, rfl⟩, portVal_toNat (hcount.trans (by decide)), dimField_toNat ha,
    dimField_toNat hb, rfl, ⟨rfl, rfl, rfl⟩, Memory.read_load_zero px⟩

/-! ### GRIDRD -/

theorem exec_gridrd {s : State} {px : List Byte} (hv : s.gvalid = true)
    (hr : s.pix.readSpan 0 (pixelCount s) = some px) :
    exec .gridrd s = succeed (0#32 ++ (s.h ++ s.w)) (streamOfPixels px) s := by
  rw [exec, execGridrd, requireGrid_valid hv, hr, withPixels_some]

/-- `val[31:16] = H`, `val[15:0] = W`, and the upper half is 0 (R136). -/
theorem toNat_dimensions (h w : Dim) : (0#32 ++ (h ++ w)).toNat = h.toNat * 2 ^ 16 + w.toNat := by
  rw [BitVec.toNat_append, BitVec.toNat_append, Nat.shiftLeft_eq h.toNat, Nat.mul_comm h.toNat,
    ← Nat.two_pow_add_eq_or_of_lt w.isLt]
  simp

/-- Settles O23: on a loaded grid the span of all its pixels is there. -/
theorem gridrdHandsTheGridBack : Obligations.GridrdHandsTheGridBack := by
  intro a b str s
  refine ⟨rfl, exec_gridInvalid rfl, fun ⟨hv, hpix⟩ => ?_⟩
  obtain ⟨px, hr⟩ := Memory.readSpan_isSome (m := s.pix) (k := 0) (n := pixelCount s) (by simpa using hpix)
  obtain ⟨hlen, hread⟩ := Memory.readSpan_eq_some.1 hr
  refine ⟨_, _, px, exec_gridrd hv hr, toNat_dimensions s.h s.w, carries_streamOfPixels px, hlen, fun k hk => ?_⟩
  rw [← hread k (hlen ▸ hk), Nat.zero_add]

/-! ### GRIDLD, other commands, GRIDRD -/

/-- The grid and its flag are the same in both states. -/
def SameGrid (s t : State) : Prop := SameGridRegs s t ∧ t.pix = s.pix

theorem SameGrid.trans {s t u : State} (h : SameGrid s t) (h' : SameGrid t u) : SameGrid s u := by
  obtain ⟨⟨hh, hw, hv⟩, hpix⟩ := h
  obtain ⟨⟨hh', hw', hv'⟩, hpix'⟩ := h'
  exact ⟨⟨hh'.trans hh, hw'.trans hw, hv'.trans hv⟩, hpix'.trans hpix⟩

/-- Only GRIDLD, LSBEMB and STEGENC touch the grid. -/
theorem exec_sameGrid {i : Instr} {s t : State} (hi : writesGrid i = false) (h : exec i s = .next t) :
    SameGrid s t := by
  obtain ⟨-, hgrid⟩ | ⟨hn, u, r, hw, rfl⟩ := exec_sameBlock_or_writes h
  · exact hgrid
  · cases hw with
    | nothing hn' => rw [hn] at hn'; cases hn'
    | table _ => exact ⟨⟨rfl, rfl, rfl⟩, rfl⟩
    | embedded _ _ | encoded _ _ | loaded _ _ _ => cases hi

theorem execAll_sameGrid {l : List Instr} {s t : State} (hl : ∀ i ∈ l, writesGrid i = false)
    (h : execAll l s = .next t) : SameGrid s t := by
  induction l generalizing s with
  | nil => cases h; exact ⟨⟨rfl, rfl, rfl⟩, rfl⟩
  | cons i l ih =>
    rw [execAll] at h
    split at h
    next u hu =>
      exact (exec_sameGrid (hl i List.mem_cons_self) hu).trans (ih (fun j hj => hl j (List.mem_cons_of_mem i hj)) h)
    next => cases h
    next => cases h

/-- Settles O56: what runs in between leaves the grid that GRIDLD made, and GRIDRD reads all of it. -/
theorem gridRoundTrip : Obligations.GridRoundTrip := by
  intro a b px between s t u ha hb hl ht hbetween hu
  cases (exec_gridld ha hb hl s).symm.trans ht
  obtain ⟨⟨hh, hw, hv⟩, hpix⟩ := execAll_sameGrid hbetween hu
  have hcount : pixelCount u = a.toNat * b.toNat := by
    rw [pixelCount, hh, hw]
    exact pixelCount_setGrid ha hb px s
  have hr : u.pix.readSpan 0 (pixelCount u) = some px := by
    rw [hpix, hcount]
    exact Memory.readSpan_eq_some.2 ⟨hl, fun j _ => (Memory.read_load_zero px _).trans (by rw [Nat.zero_add])⟩
  refine ⟨_, _, exec_gridrd hv hr, ?_, carries_streamOfPixels px⟩
  rw [toNat_dimensions, hh, hw]
  exact congrArg₂ (· * 2 ^ 16 + ·) (dimField_toNat ha) (dimField_toNat hb)

/-! ### STEGDEC -/

/-- A cut at or beyond a slice's end does not change it. -/
theorem slice_take {α : Type} (l : List α) (i : Nat) {j n : Nat} (h : j ≤ n) : slice (l.take n) i j = slice l i j := by
  rw [slice, slice, List.take_take, Nat.min_eq_left h]

/-- Where `lsb` lists the low bits of the grid, extraction takes a slice of it (R120). -/
theorem extractGrid_eq_slice {s : State} (hs : s.GridLoaded) {lsb : Bits} (hlen : lsb.length = pixelCount s)
    (hlsb : ∀ k < pixelCount s, (s.pix.read k).map pixelLsb = lsb[k]?) (start length : Nat) :
    extractGrid start length s = some (slice lsb start (start + length)) := by
  obtain ⟨-, hpix⟩ := hs
  have hslice := length_slice lsb start (start + length)
  refine extractGrid_eq_some.2 ⟨by omega, fun j hj => ⟨?_, hpix _ (by omega)⟩⟩
  rw [hlsb _ (by omega), getElem?_slice, if_pos (by omega)]

/-- The header is all that `unframeHeader` reads (R102). -/
theorem unframeHeader_slice (f : Bits) : unframeHeader (slice f 0 32) = unbin (slice f 0 32) :=
  congrArg unbin (slice_take f 0 (Nat.le_refl 32))

/-- A payload of a grid decodes to fewer characters than the port can count. -/
theorem portVal_length_gzrBitsToText {s : State} {start length : Nat} {bits : Bits}
    (hb : extractGrid start length s = some bits) :
    (portVal (gzrBitsToText bits).length).toNat = (gzrBitsToText bits).length := by
  obtain ⟨hlen, -⟩ := extractGrid_eq_some.1 hb
  have hcount := pixelCount_lt s
  have htext := length_gzrBitsToText_le bits
  exact portVal_toNat (by omega)

/-- Settles O25: header and payload are slices of the grid's low bits, and the declared length is compared with what the
header leaves of the grid. -/
theorem stegdecDecodesTheDeclaredPayload : Obligations.StegdecDecodesTheDeclaredPayload := by
  intro a b str s
  have hcount := pixelCount_lt s
  refine ⟨rfl, exec_gridInvalid rfl, fun hv hn => ⟨_, exec_stegdec_small hv hn, ?_⟩, fun hs hn lsb hlen hlsb => ?_⟩
  · rw [portPair_toNat hcount (by decide), Nat.add_zero]
  · have hext := extractGrid_eq_slice hs hlen hlsb
    have hheader := unframeHeader_slice lsb
    have hdecl := unframeHeader_lt (slice lsb 0 32)
    obtain ⟨hv, -⟩ := hs
    rw [← hheader]
    refine ⟨fun hd => ⟨_, exec_stegdec_beyond hv hn (hext 0 32) hd, portPair_toNat hcount hdecl⟩, fun hd => ?_⟩
    have hb := hext 32 (unframeHeader (slice lsb 0 32))
    refine ⟨_, _, exec_stegdec hv hn (hext 0 32) (Nat.not_lt_of_le hd) hb, ?_, carries_streamOfText _⟩
    rw [portVal_length_gzrBitsToText hb, streamOfText, List.length_map]

/-! ### STEGENC, then STEGDEC -/

/-- The length of a text's frame (R100, R85). -/
theorem length_frame_textToGzrBits (text : List Byte) :
    (frame (textToGzrBits text)).length = 32 + 9 * text.length := by
  rw [length_frame, length_textToGzrBits]

theorem unframeHeader_bin32 {n : Nat} (h : n < 2 ^ 32) : unframeHeader (bin32 n) = n := by
  rw [unframeHeader, slice, List.take_of_length_le (length_bin32 n).le, List.drop_zero, unbin_bin32 h]

/-- A grid that has room for the header holds it after a frame is embedded, whether the payload fits or not. -/
theorem extractGrid_frame_header {p : Bits} {s : State} {m : Memory} (hs : s.GridLoaded)
    (hm : embedGrid (frame p) s = some m) (hn : 32 ≤ pixelCount s) :
    extractGrid 0 32 (s.setPix m) = some (bin32 p.length) := by
  have hlen := length_frame p
  rw [extractGrid_embedGrid hs hm (by omega), slice_take _ _ hn, slice_frame_header]

/-- A grid that has room for the frame holds its payload behind the header. -/
theorem extractGrid_frame_payload {p : Bits} {s : State} {m : Memory} (hs : s.GridLoaded)
    (hm : embedGrid (frame p) s = some m) (hn : 32 + p.length ≤ pixelCount s) :
    extractGrid 32 p.length (s.setPix m) = some p := by
  rw [extractGrid_embedGrid hs hm (length_frame p).ge, slice_take _ _ hn, slice_frame_payload]

/-- A text that passes the capacity check is embedded, and `val` is the length of its whole frame (R137). -/
theorem exec_stegenc_answers {text : List Byte} {s : State} (hs : s.GridLoaded)
    (hcap : 9 * text.length / 8 + 1 ≤ pixelCount s / 8) :
    ∃ m v, embedGrid (frame (textToGzrBits text)) s = some m ∧ v.toNat = 32 + 9 * text.length ∧
      exec (.stegenc text) s = succeed v [] (s.setPix m) := by
  obtain ⟨hv, hpix⟩ := hs
  obtain ⟨m, hm⟩ := embedGrid_isSome (f := frame (textToGzrBits text)) hpix
  have hcount := pixelCount_lt s
  refine ⟨m, _, hm, ?_, exec_stegenc hv (Nat.not_lt_of_le hcap) hm⟩
  rw [length_frame_textToGzrBits, portVal_toNat (by omega)]

/-- Settles O54: a frame that fits passes the capacity check and is on the grid whole, and its payload decodes to the
text without its zeros. -/
theorem encodedTextIsDecoded : Obligations.EncodedTextIsDecoded := by
  intro text s hs hfits
  have hcount := pixelCount_lt s
  have hp := length_textToGzrBits text
  have hn : 32 ≤ pixelCount s := by omega
  obtain ⟨m, v, hm, -, henc⟩ := exec_stegenc_answers (text := text) hs (by omega)
  have hheader := extractGrid_frame_header hs hm hn
  have hpayload := extractGrid_frame_payload hs hm (by omega)
  have hdecl : unframeHeader (bin32 (textToGzrBits text).length) = (textToGzrBits text).length :=
    unframeHeader_bin32 (by omega)
  have hroom : ¬ pixelCount s - 32 < unframeHeader (bin32 (textToGzrBits text).length) := by omega
  rw [← hdecl] at hpayload
  obtain ⟨hv, -⟩ := hs
  refine ⟨_, v, _, _, henc, ⟨rfl, rfl⟩,
    exec_stegdec (s := (s.setPix m).respond ⟨.ok, v, []⟩) hv hn hheader hroom hpayload, ?_⟩
  rw [← textRoundTripDropsZeros text]
  exact carries_streamOfText _

/-- Settles O55: a grid below 32 pixels has no room for a header; any other holds the whole header, which declares more
than the grid has behind it. -/
theorem truncatedTextIsRejectedByDecode : Obligations.TruncatedTextIsRejectedByDecode := by
  intro text s hs hcap hover
  obtain ⟨m, v, hm, hval, henc⟩ := exec_stegenc_answers hs hcap
  have ⟨hv, _⟩ := hs
  rcases Nat.lt_or_ge (pixelCount s) 32 with hn | hn
  · exact ⟨_, v, _, henc, ⟨rfl, rfl⟩, hval ▸ hover,
      exec_stegdec_small (s := (s.setPix m).respond ⟨.ok, v, []⟩) hv hn⟩
  · have hcount := pixelCount_lt s
    have hp := length_textToGzrBits text
    have hdecl := unframeHeader_bin32 (n := (textToGzrBits text).length) (by omega)
    have hbeyond : pixelCount s - 32 < unframeHeader (bin32 (textToGzrBits text).length) := by omega
    have hheader := extractGrid_frame_header hs hm hn
    exact ⟨_, v, _, henc, ⟨rfl, rfl⟩, hval ▸ hover,
      exec_stegdec_beyond (s := (s.setPix m).respond ⟨.ok, v, []⟩) hv hn hheader hbeyond⟩

end Sys2Proof.Machine

/-! SUPPORT. The statements about exceptions: what an instruction that raises answers and leaves unchanged, which causes
it may raise, the status codes, and the two causes IllegalCommand and GridInvalid. -/

namespace Sys2Proof.Machine

/-! ### The answer of an instruction -/

/-- The one response a command adds is determined by the states around it. -/
theorem Answered.unique {s t : State} {r r' : Response} (h : Answered s t r) (h' : Answered s t r') : r = r' := by
  obtain ⟨hr, -⟩ := h
  obtain ⟨hr', -⟩ := h'
  exact List.singleton_inj.1 (List.append_cancel_left (hr.symm.trans hr'))

/-- What an instruction answers: OK, or a cause of its list with an empty stream and the block as it was (R150, R151). -/
theorem exec_answer_cases {i : Instr} {s t : State} {r : Response} (h : exec i s = .next t) (hr : Answered s t r) :
    r.status = .ok ∨ r.status ∈ mayRaise i ∧ r.t = [] ∧ SameBlock s t := by
  obtain ⟨cause, info, hc, rfl⟩ | ⟨val, ts, u, hw, rfl⟩ := exec_eq_next h
  · obtain rfl : r = ⟨cause, info, []⟩ := hr.unique ⟨rfl, rfl⟩
    exact .inr ⟨hc, rfl, sameBlock_respond s _⟩
  · obtain ⟨hresp, hin⟩ := hw.host_side
    obtain rfl : r = ⟨.ok, val, ts⟩ := hr.unique ⟨by rw [State.respond_responses, hresp], hin⟩
    exact .inl rfl

/-- Settles O27: of the two answers only the raise is not OK. -/
theorem exceptionsChangeNoState : Obligations.ExceptionsChangeNoState := by
  intro i s t r h hr hne
  obtain hok | ⟨-, ht, hsame⟩ := exec_answer_cases h hr
  · exact absurd hok hne
  · exact ⟨hsame, ht⟩

/-! ### The causes and their codes -/

/-- Every instruction raises causes of these five only: UnsupportedCodePoint is raised by no operation (R154), and
IllegalCommand by the step before any instruction runs (R155). -/
theorem mayRaise_subset (i : Instr) :
    mayRaise i ⊆ [.capacityExceeded, .malformedHeader, .weightTableInvalid, .gridInvalid, .operandError] := by
  cases i <;> simp [mayRaise]

/-- A status is read back from its code: the codes of R151 number the constructors in order. -/
theorem ofNat_statusCode (x : Status) : Status.ofNat (statusCode x).toNat = x := by
  cases x <;> rfl

theorem statusCode_lt (x : Status) : (statusCode x).toNat < 8 := by
  cases x <;> decide

theorem statusCode_injective : Function.Injective statusCode := fun x y h => by
  rw [← ofNat_statusCode x, h, ofNat_statusCode]

/-- Settles O28: the answer is OK or in the instruction's list, no list has the two causes, and the codes are those of
R151. -/
theorem onlyListedExceptionsAreRaised : Obligations.OnlyListedExceptionsAreRaised := by
  refine ⟨fun i s t r h hr => (exec_answer_cases h hr).imp_right And.left, fun i => ⟨fun h => ?_, fun h => ?_⟩,
    rfl, rfl, rfl, rfl, rfl, rfl, rfl, rfl, fun x y h => statusCode_injective h, statusCode_lt⟩
  · exact absurd (mayRaise_subset i h) (by decide)
  · exact absurd (mayRaise_subset i h) (by decide)

/-! ### IllegalCommand and GridInvalid -/

/-- Settles O7: a reserved word does not decode, so the step raises before any operand or state is looked at. -/
theorem reservedWordRaisesIllegalCommand : Obligations.ReservedWordRaisesIllegalCommand := by
  intro s c rest h hrsv
  have hd : decode c = .error (.reservedBits c.word) := (decodeRejectsExactlyReservedWords c).2 hrsv
  have hrest : s.accept.inputs = rest := by rw [State.accept_inputs, h, List.tail_cons]
  refine ⟨_, c.word.setWidth 64, step_reserved h hd, sameBlock_respond s.accept _, hrest, rfl, ?_⟩
  exact BitVec.toNat_setWidth_of_le (by omega)

/-- Settles O29: each of the seven readers asks for the grid first. -/
theorem gridReadersNeedAGrid : Obligations.GridReadersNeedAGrid := fun _ _ hi hv =>
  exec_gridInvalid hi hv

end Sys2Proof.Machine

/-! SUPPORT. The statements about reset: which flags it clears, that nothing the flags guard is readable after it, and
that the invariant starts there. -/

namespace Sys2Proof.Machine

/-- Settles O8: the step resets the state without the reset input, and the reset line leaves the host's side alone. -/
theorem resetClearsTheValidFlags : Obligations.ResetClearsTheValidFlags := by
  refine fun s => ⟨fun rest h => ⟨_, step_reset h, rfl, rfl, ?_, rfl⟩, step_idle⟩
  rw [State.applyReset_inputs, State.accept_inputs, h, List.tail_cons]

/-- The instructions that may raise GridInvalid are the readers of the grid (R151, R157). -/
theorem gridInvalid_mem_mayRaise_iff (i : Instr) : .gridInvalid ∈ mayRaise i ↔ readsGrid i = true := by
  cases i <;> simp [mayRaise, readsGrid]

/-- An instruction that may raise WeightTableInvalid raises it without a table (R156). -/
theorem exec_weightTableInvalid {i : Instr} {s : State} (hi : .weightTableInvalid ∈ mayRaise i)
    (hv : s.wvalid = false) : exec i s = raise .weightTableInvalid 0#64 s := by
  cases i with
  | gzrenc _ | gzrdec _ => exact requireTable_invalid hv _
  | tribgen _ | txt2bits _ | bits2txt _ | frame _ | unframeh _ | unframep _ _ | lsbemb _ | lsbext _ _ | capq
  | capchk _ | gridld _ _ _ | gridrd | stegenc _ | stegdec => simp [mayRaise] at hi

/-- Settles O9: right after reset neither flag is set, so the table or the grid is refused before anything is read. -/
theorem nothingIsReadableAfterReset : Obligations.NothingIsReadableAfterReset := by
  rintro i (htable | hgrid)
  · exact ⟨_, exec_weightTableInvalid htable rfl, .inl rfl, rfl, rfl⟩
  · exact ⟨_, exec_gridInvalid ((gridInvalid_mem_mayRaise_iff i).1 hgrid) rfl, .inr rfl, rfl, rfl⟩

/-- Settles O38: the state right after reset is what the reset line makes of it. -/
theorem resetMeetsTheInvariant : Obligations.ResetMeetsTheInvariant :=
  State.inv_applyReset State.reset

end Sys2Proof.Machine
